-- ==== Sys2Proof/Word.lean ====
section
/-! DEFINITION. The machine's words: a byte (00_scope R7: cells, registers, flags and `sp` are 8 bits wide) and the
9-bit program counter (10_state R14). -/

namespace Sys2Proof

/-- An 8-bit value: a memory cell, a general register, the Flags register, the stack pointer, an opcode or operand byte. -/
abbrev Byte := BitVec 8

/-- The program counter's word: 9 bits, so that 256 can be held (10_state R14). -/
abbrev PcWord := BitVec 9

end Sys2Proof
end

