-- ==== Sys2Proof/Machine/Flags.lean ====
section
/-! DEFINITION. The one flag, E ("equal"), bit 0 of `fl` (10_state R17): how it is read, written and computed. -/

namespace Sys2Proof.Machine

/-- `fl.E`, bit 0 (10_state R17). -/
def flagE (fl : Byte) : Bool := fl.getLsbD 0

/-- `fl.E <- e`: bit 0 is written, bits 7:1 are not (44_alu R133). -/
def setFlagE (fl : Byte) (e : Bool) : Byte := (fl &&& 0xFE#8) ||| (BitVec.ofBool e).setWidth 8

/-- The flag CMP computes: the two full 8-bit values are equal (44_alu R133). -/
def equalFlag (u v : Byte) : Bool := decide (u = v)

end Sys2Proof.Machine
end

