-- ==== Sys2Proof/Config.lean ====
section
/-! DEFINITION. The implementation parameters, every one fixed by 00_scope R7. The spec leaves no value open
(40_cycle R80, 93_implementation_defined section 2), so there is no free value here. -/

namespace Sys2Proof

/-- Number of memory cells (00_scope R7). -/
abbrev Config.memSize : Nat := 256

/-- The fixed entry point: `pc` at reset and the address of the program's first byte (10_state R26, 20_memory R37). -/
abbrev Config.entryPoint : PcWord := 0#9

/-- Reset value of the stack pointer (10_state R15, R26). -/
abbrev Config.spReset : Byte := 0xF4#8

/-- Reset value of register 7, a separate register from `sp` (10_state R12, R26). -/
abbrev Config.reg7Reset : Byte := 0xF4#8

end Sys2Proof
end

