-- ==== Sys2Proof/Syntax.lean ====
section
/-! DEFINITION. The thirteen instructions (00_scope R2, 30_encoding R55) and the decoder's output types. -/

namespace Sys2Proof

/-- An instruction: one constructor per row of the opcode table, with its operand bytes in the order they follow the
opcode byte (30_encoding R53). A register operand is the raw operand byte, because the spec checks it when the
instruction runs (40_cycle R75); `Instr.wellFormed` says when it names a register. -/
inductive Instr where
  /-- HLT (0x01). -/
  | hlt
  /-- LDI r, v (0x82): register, immediate. -/
  | ldi (r v : Byte)
  /-- PRN r (0x47). -/
  | prn (r : Byte)
  /-- PUSH r (0x45). -/
  | push (r : Byte)
  /-- POP r (0x46). -/
  | pop (r : Byte)
  /-- CALL r (0x50). -/
  | call (r : Byte)
  /-- RET (0x11). -/
  | ret
  /-- JMP r (0x54). -/
  | jmp (r : Byte)
  /-- JEQ r (0x55). -/
  | jeq (r : Byte)
  /-- JNE r (0x56). -/
  | jne (r : Byte)
  /-- ADD a, b (0xA0). -/
  | add (a b : Byte)
  /-- MUL a, b (0xA2). -/
  | mul (a b : Byte)
  /-- CMP a, b (0xA7). -/
  | cmp (a b : Byte)
  deriving DecidableEq, Repr

/-- The four fields of an opcode byte (30_encoding R51). -/
structure OpcodeFields where
  /-- Bits 7:6, the number of operand bytes. -/
  n : BitVec 2
  /-- Bit 5, informational only (30_encoding R60). -/
  alu : Bool
  /-- Bit 4, the handler writes `pc` itself. -/
  setpc : Bool
  /-- Bits 3:0, the identity. -/
  id : BitVec 4
  deriving DecidableEq, Repr

/-- What a dispatch-table entry makes of the operand bytes that follow the opcode byte: formats Z, R, and RR or RI of
30_encoding R53, by the number of operand bytes. -/
inductive Form where
  | noOperand (i : Instr)
  | oneOperand (make : Byte → Instr)
  | twoOperands (make : Byte → Byte → Instr)

/-- A row of the dispatch table (30_encoding R55). -/
structure OpcodeRow where
  value : Byte
  form : Form

/-- Why a list of bytes is no instruction. -/
inductive DecodeError where
  /-- There is no opcode byte. -/
  | noOpcode
  /-- The opcode byte is none of the thirteen (30_encoding R58). -/
  | unsupportedOpcode (opcode : Byte)
  /-- The `k`-th operand byte (1 or 2) is missing. -/
  | missingOperand (k : Nat)
  deriving DecidableEq, Repr

end Sys2Proof
end

