-- ==== Sys2Proof/Machine/State.lean ====
section
/-! DEFINITION. The architectural state, the spec's tuple `( x[0..7], fl, pc, sp, mem[0..255], run, fault, out )` and
nothing else (10_state), its reset value, and the reasons a step or a load can stop. -/

namespace Sys2Proof.Machine

/-- Memory contents: (address, byte) pairs with strictly rising addresses and no entry holding 0, which is what an
unlisted address reads as (10_state R20: "zero-initialized"). `Memory.wf` says the form holds. -/
abbrev Memory := List Host.Cell

/-- The run state (10_state R18). -/
inductive RunState where
  | running
  | halted
  | faulted
  deriving DecidableEq, Repr

/-- A fault the core has taken: its kind with its info (10_state R19, 60_exceptions R141). -/
inductive FaultRecord where
  /-- An address or a stack pointer value outside 0 to 255, with that value (60_exceptions R142). -/
  | outOfBounds (addr : Int)
  /-- An opcode byte outside the table, with that byte (60_exceptions R143). -/
  | unsupportedOpcode (opcode : Byte)
  /-- A register operand above 7, with that byte (60_exceptions R144). -/
  | invalidRegister (operand : Byte)
  deriving DecidableEq, Repr

/-- The whole state of the core (10_state). -/
structure State where
  /-- The eight general registers (10_state R10). -/
  x : Vector Byte 8
  /-- The Flags register; bit 0 is E, "equal" (10_state R17). -/
  fl : Byte
  /-- The program counter, 0 to 256 (10_state R13, R14). -/
  pc : PcWord
  /-- The stack pointer (10_state R15, R16). -/
  sp : Byte
  /-- The 256 memory cells (10_state R20). -/
  mem : Memory
  /-- RUNNING, HALTED or FAULTED (10_state R18). -/
  run : RunState
  /-- The fault record, empty unless FAULTED (10_state R19). -/
  fault : Option FaultRecord
  /-- The values printed so far, oldest first (10_state R21). -/
  out : List Byte
  deriving DecidableEq, Repr

/-- Why a step stops. A fault of the core is no such stop: it is taken, as a next state (60_exceptions R145). -/
inductive Fault where
  /-- Raised by `step` on a HALTED core: "there is no step" (40_cycle R71, R78). Safe: the spec gives no successor. -/
  | halted
  /-- Raised by `step` on a FAULTED core: "there is no step" (40_cycle R71, R78). Safe: the spec gives no successor. -/
  | faulted
  deriving DecidableEq, Repr

/-- What the model refuses. -/
inductive Refusal where
  /-- An instruction without a meaning; no arm of `exec` answers it. Safe. -/
  | notModelled (mnemonic : String)
  /-- Raised by `State.load` for a program of more than 256 bytes, which the spec refuses (70_reset R172). Safe. -/
  | programTooLong (length : Nat)
  deriving DecidableEq, Repr

/-- The state after reset with nothing loaded (10_state R26, 70_reset R171 (1) to (4)). -/
def State.reset : State :=
  { x := #v[0#8, 0#8, 0#8, 0#8, 0#8, 0#8, 0#8, Config.reg7Reset]
    fl := 0#8
    pc := Config.entryPoint
    sp := Config.spReset
    mem := []
    run := .running
    fault := none
    out := [] }

end Sys2Proof.Machine
end

