-- ==== Sys2Proof/Machine/Ops.lean ====
section
/-! DEFINITION. The named operations over memory, registers and the rest of the state, and taking a fault. There is no
return from a fault (60_exceptions R147). -/

namespace Sys2Proof.Machine

/-- What a step or a meaning answers. -/
abbrev Answer := Host.Outcome State Fault Refusal

/-! ## Memory -/

/-- What an address that no entry lists reads as (10_state R20, 20_memory R37 (c)). -/
def Memory.unlisted : Byte := 0#8

/-- The byte held at an address. -/
def Memory.read : Memory → Nat → Byte
  | [], _ => Memory.unlisted
  | (b, w) :: m, a => if a = b then w else Memory.read m a

/-- The cell for address `a` holding `v` in front of the entries `m`, left out when `v` is what an unlisted address
reads as. -/
def Memory.cons (a : Nat) (v : Byte) (m : Memory) : Memory :=
  if v = Memory.unlisted then m else (a, v) :: m

/-- The memory with byte `v` at address `a`, in canonical form. -/
def Memory.write : Memory → Nat → Byte → Memory
  | [], a, v => Memory.cons a v []
  | (b, w) :: m, a, v =>
    if a < b then Memory.cons a v ((b, w) :: m)
    else if a = b then Memory.cons a v m
    else (b, w) :: Memory.write m a v

/-- The canonical form of the entries from address `lo` on: strictly rising addresses below 256, no listed value equal
to what an unlisted address reads as. -/
def Memory.wfFrom (lo : Nat) : Memory → Bool
  | [] => true
  | (b, w) :: m =>
    decide (lo ≤ b) && decide (b < Config.memSize) && decide (w ≠ Memory.unlisted) && Memory.wfFrom (b + 1) m

/-- The memory is in canonical form. -/
def Memory.wf (m : Memory) : Bool := Memory.wfFrom 0 m

/-- The integer `addr` as the number of a memory cell, or OutOfBounds when it is outside 0 to 255; it is never wrapped
(20_memory R31, R32). -/
def cellOf (addr : Int) : Except FaultRecord Nat :=
  match addr with
  | .ofNat a => if a < Config.memSize then .ok a else .error (.outOfBounds addr)
  | .negSucc _ => .error (.outOfBounds addr)

/-- `MemRead(addr, 1)`: the byte at an integer address, or OutOfBounds (20_memory R31). -/
def memRead (m : Memory) (addr : Int) : Except FaultRecord Byte :=
  match cellOf addr with
  | .ok a => .ok (Memory.read m a)
  | .error f => .error f

/-- `MemWrite(addr, 1, v)`: the memory after the store, or OutOfBounds (20_memory R32). -/
def memWrite (m : Memory) (addr : Int) (v : Byte) : Except FaultRecord Memory :=
  match cellOf addr with
  | .ok a => .ok (Memory.write m a v)
  | .error f => .error f

/-- The memory with `bytes` at ascending addresses from `a`; a byte that would lie past the last cell is dropped. -/
def storeBytes (m : Memory) (a : Nat) : List Byte → Memory
  | [] => m
  | v :: vs => storeBytes (if a < Config.memSize then Memory.write m a v else m) (a + 1) vs

/-- The `n` bytes from address `a` up, those past the last cell left out. -/
def loadBytes (m : Memory) (a : Nat) : Nat → List Byte
  | 0 => []
  | n + 1 => if a < Config.memSize then Memory.read m a :: loadBytes m (a + 1) n else []

/-! ## Registers, program counter, output -/

/-- `x[r]` (10_state R10). -/
def State.getX (s : State) (r : Fin 8) : Byte := s.x.get r

/-- `x[r] <- v`; no other register changes and `sp` is never register 7 (10_state R10, R12). -/
def State.setX (s : State) (r : Fin 8) (v : Byte) : State := { s with x := s.x.set r v }

/-- `pc <- t` for a byte `t`: a control transfer's target (43_control R110). -/
def State.jump (s : State) (target : Byte) : State := { s with pc := target.setWidth 9 }

/-- The generic advance past the opcode byte and `n` operand bytes: `pc <- pc + n + 1` (40_cycle R76). -/
def State.advance (s : State) (n : Nat) : State := { s with pc := s.pc + BitVec.ofNat 9 (n + 1) }

/-- `out.emit(v)`: append to the output stream (10_state R21). -/
def State.emit (s : State) (v : Byte) : State := { s with out := s.out ++ [v] }

/-! ## Taking a fault -/

/-- Taking a fault: `run <- FAULTED`, `fault <- (K, info)`, and every other component keeps the value it had when the
step began (60_exceptions R145). -/
def takeFault (f : FaultRecord) (s : State) : State := { s with run := .faulted, fault := some f }

/-- A check or an access inside a step that began in `s`: go on with its value, or end the step with its fault taken
in `s` (00_scope R8: `raise K(info)`). -/
def orFault {α : Type} (r : Except FaultRecord α) (s : State) (go : α → Answer) : Answer :=
  match r with
  | .ok a => go a
  | .error f => .next (takeFault f s)

end Sys2Proof.Machine
end

