-- ==== Sys2Proof/Machine/Operands.lean ====
section
/-! DEFINITION. The operand forms: a register index, the immediate (LDI's second operand, used as it is: 30_encoding
R54), and the two stack slots. -/

namespace Sys2Proof.Machine

/-- Phase 4 of the step for one register operand: the register it names, or InvalidRegister with the byte; the index is
neither masked nor wrapped (40_cycle R75). -/
def regIndex (operand : Byte) : Except FaultRecord (Fin 8) :=
  if h : operand.toNat < 8 then .ok ⟨operand.toNat, h⟩ else .error (.invalidRegister operand)

/-- The new stack pointer of a push, which is the address it stores at: `sp - 1`, or OutOfBounds(-1) when `sp = 0`
(42_stack R100, R101). -/
def pushSlot (sp : Byte) : Except FaultRecord Byte :=
  if sp = 0#8 then .error (.outOfBounds (-1)) else .ok (sp - 1#8)

/-- The new stack pointer of a pop: `sp + 1`, or OutOfBounds(256) when `sp = 255` (42_stack R100, R102). -/
def popSlot (sp : Byte) : Except FaultRecord Byte :=
  if sp = 255#8 then .error (.outOfBounds 256) else .ok (sp + 1#8)

/-- CALL's return address `pc + 2` as a byte, or OutOfBounds when it is no memory address (43_control R111). -/
def returnAddress (pc : PcWord) : Except FaultRecord Byte :=
  if 255 < pc.toNat + 2 then .error (.outOfBounds (pc.toNat + 2)) else .ok (BitVec.ofNat 8 (pc.toNat + 2))

end Sys2Proof.Machine
end

