-- ==== Sys2Proof/Machine/Alu.lean ====
section
/-! DEFINITION. ADD, MUL, CMP (44_alu). -/

namespace Sys2Proof.Machine

/-- The exact sum of two unsigned bytes, its remainder modulo 256 kept (44_alu R130, R131). -/
def aluAdd (u v : Byte) : Byte := BitVec.ofNat 8 ((u.toNat + v.toNat) % 256)

/-- The exact product of two unsigned bytes, its remainder modulo 256 kept (44_alu R130, R132). -/
def aluMul (u v : Byte) : Byte := BitVec.ofNat 8 ((u.toNat * v.toNat) % 256)

/-- ADD a, b: `x[a] <- (x[a] + x[b]) mod 256`, no flag (44_alu R131). -/
def execAdd (a b : Byte) (s : State) : Answer :=
  orFault (regIndex a) s fun i =>
  orFault (regIndex b) s fun j =>
  .next ((s.setX i (aluAdd (s.getX i) (s.getX j))).advance 2)

/-- MUL a, b: `x[a] <- (x[a] * x[b]) mod 256`, no flag (44_alu R132). -/
def execMul (a b : Byte) (s : State) : Answer :=
  orFault (regIndex a) s fun i =>
  orFault (regIndex b) s fun j =>
  .next ((s.setX i (aluMul (s.getX i) (s.getX j))).advance 2)

/-- CMP a, b: `fl.E <- (x[a] = x[b])`, no register (44_alu R133). -/
def execCmp (a b : Byte) (s : State) : Answer :=
  orFault (regIndex a) s fun i =>
  orFault (regIndex b) s fun j =>
  .next ({ s with fl := setFlagE s.fl (equalFlag (s.getX i) (s.getX j)) }.advance 2)

end Sys2Proof.Machine
end

