-- ==== Sys2Proof/Machine/Control.lean ====
section
/-! DEFINITION. CALL, RET, JMP, JEQ, JNE (43_control): the five that write `pc` themselves (R110). -/

namespace Sys2Proof.Machine

/-- CALL r: the `sp = 0` check, the return-address check, the store of `pc + 2` at `sp - 1`, `sp <- sp - 1`,
`pc <- x[r]` (43_control R111). -/
def execCall (r : Byte) (s : State) : Answer :=
  orFault (regIndex r) s fun i =>
  orFault (pushSlot s.sp) s fun slot =>
  orFault (returnAddress s.pc) s fun ret =>
  orFault (memWrite s.mem slot.toNat ret) s fun m =>
  .next ({ s with mem := m, sp := slot }.jump (s.getX i))

/-- RET: the `sp = 255` check, `pc <- mem[sp]`, `sp <- sp + 1` (43_control R112). -/
def execRet (s : State) : Answer :=
  orFault (popSlot s.sp) s fun sp' =>
  orFault (memRead s.mem s.sp.toNat) s fun target =>
  .next ({ s with sp := sp' }.jump target)

/-- JMP r: `pc <- x[r]` (43_control R113). -/
def execJmp (r : Byte) (s : State) : Answer :=
  orFault (regIndex r) s fun i => .next (s.jump (s.getX i))

/-- A conditional branch with one operand: to `x[i]` when taken, else past the operand (43_control R114, R115;
90_conflicts C2). -/
def branchIf (taken : Bool) (i : Fin 8) (s : State) : State :=
  if taken then s.jump (s.getX i) else s.advance 1

/-- JEQ r: taken when `fl.E = 1`; the index is checked taken or not (43_control R114). -/
def execJeq (r : Byte) (s : State) : Answer :=
  orFault (regIndex r) s fun i => .next (branchIf (flagE s.fl) i s)

/-- JNE r: taken when `fl.E = 0`; the index is checked taken or not (43_control R115). -/
def execJne (r : Byte) (s : State) : Answer :=
  orFault (regIndex r) s fun i => .next (branchIf (!flagE s.fl) i s)

end Sys2Proof.Machine
end

