-- ==== Sys2Proof/Machine/HaltLoadPrint.lean ====
section
/-! DEFINITION. HLT, LDI, PRN (41_halt_load_print). -/

namespace Sys2Proof.Machine

/-- HLT: the generic advance, then `run <- HALTED` (41_halt_load_print R91, 40_cycle R77). -/
def execHlt (s : State) : Answer :=
  .next { s.advance 0 with run := .halted }

/-- LDI r, v: `x[r] <- v` (41_halt_load_print R92). -/
def execLdi (r v : Byte) (s : State) : Answer :=
  orFault (regIndex r) s fun i => .next ((s.setX i v).advance 2)

/-- PRN r: `out.emit(x[r])` (41_halt_load_print R94). -/
def execPrn (r : Byte) (s : State) : Answer :=
  orFault (regIndex r) s fun i => .next ((s.emit (s.getX i)).advance 1)

end Sys2Proof.Machine
end

