-- ==== Sys2Proof/Machine/Stack.lean ====
section
/-! DEFINITION. PUSH, POP (42_stack). -/

namespace Sys2Proof.Machine

/-- PUSH r: the `sp = 0` check, the store at `sp - 1`, then `sp <- sp - 1` (42_stack R101). -/
def execPush (r : Byte) (s : State) : Answer :=
  orFault (regIndex r) s fun i =>
  orFault (pushSlot s.sp) s fun slot =>
  orFault (memWrite s.mem slot.toNat (s.getX i)) s fun m =>
  .next ({ s with mem := m, sp := slot }.advance 1)

/-- POP r: the `sp = 255` check, the load from `sp`, then `sp <- sp + 1` (42_stack R102). -/
def execPop (r : Byte) (s : State) : Answer :=
  orFault (regIndex r) s fun i =>
  orFault (popSlot s.sp) s fun sp' =>
  orFault (memRead s.mem s.sp.toNat) s fun v =>
  .next ({ s.setX i v with sp := sp' }.advance 1)

end Sys2Proof.Machine
end

