-- ==== Sys2Proof/WellFormed.lean ====
section
/-! DEFINITION. When an instruction's operands are ones the spec gives a meaning other than the InvalidRegister
fault: every register operand names one of the eight registers (30_encoding R52, R53). -/

namespace Sys2Proof

/-- An operand byte that names a general register, 0 to 7 (30_encoding R52). -/
def isRegister (b : Byte) : Bool := decide (b.toNat < 8)

/-- Every register operand names a register. LDI's immediate may be any byte (30_encoding R54). -/
def Instr.wellFormed : Instr → Bool
  | .hlt => true
  | .ldi r _ => isRegister r
  | .prn r => isRegister r
  | .push r => isRegister r
  | .pop r => isRegister r
  | .call r => isRegister r
  | .ret => true
  | .jmp r => isRegister r
  | .jeq r => isRegister r
  | .jne r => isRegister r
  | .add a b => isRegister a && isRegister b
  | .mul a b => isRegister a && isRegister b
  | .cmp a b => isRegister a && isRegister b

end Sys2Proof
end

