-- ==== Sys2Proof/Decode.lean ====
section
/-! DEFINITION. The opcode table, the decoder (total on any bytes, rejecting by name) and the encoder
(30_encoding R50 to R57). -/

namespace Sys2Proof

/-- The decoder's field extraction, total on all 256 bytes: bits 7:6, 5, 4 and 3:0 (30_encoding R51). -/
def opcodeFields (ir : Byte) : OpcodeFields :=
  { n := ir.extractLsb' 6 2, alu := ir.getLsbD 5, setpc := ir.getLsbD 4, id := ir.extractLsb' 0 4 }

/-- The thirteen rows, in the spec's order (30_encoding R55). -/
def opcodeTable : List OpcodeRow :=
  [ { value := 0x01#8, form := .noOperand .hlt },
    { value := 0x82#8, form := .twoOperands .ldi },
    { value := 0x47#8, form := .oneOperand .prn },
    { value := 0x45#8, form := .oneOperand .push },
    { value := 0x46#8, form := .oneOperand .pop },
    { value := 0x50#8, form := .oneOperand .call },
    { value := 0x11#8, form := .noOperand .ret },
    { value := 0x54#8, form := .oneOperand .jmp },
    { value := 0x55#8, form := .oneOperand .jeq },
    { value := 0x56#8, form := .oneOperand .jne },
    { value := 0xA0#8, form := .twoOperands .add },
    { value := 0xA2#8, form := .twoOperands .mul },
    { value := 0xA7#8, form := .twoOperands .cmp } ]

/-- The row whose value equals the whole byte, if any (30_encoding R55, R57). -/
def lookupRow (ir : Byte) : List OpcodeRow → Option Form
  | [] => none
  | row :: rows => if ir = row.value then some row.form else lookupRow ir rows

/-- Dispatch on the full opcode byte: 13 hits, 243 misses (30_encoding R57). -/
def lookupOpcode (ir : Byte) : Option Form := lookupRow ir opcodeTable

/-- The instruction at the head of a list of bytes, with the bytes after it. The opcode byte is looked up before any
operand byte is asked for (40_cycle R73, R74). -/
def decode : List Byte → Except DecodeError (Instr × List Byte)
  | [] => .error .noOpcode
  | ir :: rest =>
    match lookupOpcode ir with
    | none => .error (.unsupportedOpcode ir)
    | some (.noOperand i) => .ok (i, rest)
    | some (.oneOperand make) =>
      match rest with
      | [] => .error (.missingOperand 1)
      | op1 :: rest1 => .ok (make op1, rest1)
    | some (.twoOperands make) =>
      match rest with
      | [] => .error (.missingOperand 1)
      | [_] => .error (.missingOperand 2)
      | op1 :: op2 :: rest2 => .ok (make op1 op2, rest2)

/-- The opcode byte of an instruction (30_encoding R55). -/
def opcodeByte : Instr → Byte
  | .hlt => 0x01#8
  | .ldi _ _ => 0x82#8
  | .prn _ => 0x47#8
  | .push _ => 0x45#8
  | .pop _ => 0x46#8
  | .call _ => 0x50#8
  | .ret => 0x11#8
  | .jmp _ => 0x54#8
  | .jeq _ => 0x55#8
  | .jne _ => 0x56#8
  | .add _ _ => 0xA0#8
  | .mul _ _ => 0xA2#8
  | .cmp _ _ => 0xA7#8

/-- The operand bytes of an instruction, the first at `pc + 1` (30_encoding R53). -/
def operandBytes : Instr → List Byte
  | .hlt => []
  | .ldi r v => [r, v]
  | .prn r => [r]
  | .push r => [r]
  | .pop r => [r]
  | .call r => [r]
  | .ret => []
  | .jmp r => [r]
  | .jeq r => [r]
  | .jne r => [r]
  | .add a b => [a, b]
  | .mul a b => [a, b]
  | .cmp a b => [a, b]

/-- The bytes of an instruction at ascending addresses (30_encoding R50, R53). -/
def encode (i : Instr) : List Byte := opcodeByte i :: operandBytes i

/-- The length of an instruction in bytes (30_encoding R50). -/
def Instr.length (i : Instr) : Nat := (encode i).length

/-- The bytes of a table word: bit 0 is the least significant bit of the first byte, later bytes follow, and every bit at
or above `nbits` is 0. Three bytes are the longest instruction (30_encoding R50). -/
def tableWordBytes (nbits w : Nat) : List Byte :=
  let v := w % 2 ^ nbits
  [BitVec.ofNat 8 v, BitVec.ofNat 8 (v / 256), BitVec.ofNat 8 (v / 65536)]

/-- The instruction the decoder reads from a table word. -/
def decodeTableWord (nbits w : Nat) : Option Instr :=
  match decode (tableWordBytes nbits w) with
  | .ok (i, _) => some i
  | .error _ => none

end Sys2Proof
end

