-- ==== Sys2Proof/Machine/Fetch.lean ====
section
/-! DEFINITION. Phases 1 to 3 of the step (40_cycle R70): opcode fetch, dispatch, operand fetch. -/

namespace Sys2Proof.Machine

/-- Phase 2: the dispatch-table entry of an opcode byte, or UnsupportedOpcode with the byte (40_cycle R73). -/
def dispatch (ir : Byte) : Except FaultRecord Form :=
  match lookupOpcode ir with
  | some form => .ok form
  | none => .error (.unsupportedOpcode ir)

/-- Phase 3: the operand bytes the entry asks for, and no more, in ascending order from `pc + 1` (40_cycle R74). -/
def fetchOperands (s : State) : Form → Except FaultRecord Instr
  | .noOperand i => .ok i
  | .oneOperand make =>
    match memRead s.mem (s.pc.toNat + 1) with
    | .error f => .error f
    | .ok op1 => .ok (make op1)
  | .twoOperands make =>
    match memRead s.mem (s.pc.toNat + 1) with
    | .error f => .error f
    | .ok op1 =>
      match memRead s.mem (s.pc.toNat + 2) with
      | .error f => .error f
      | .ok op2 => .ok (make op1 op2)

/-- Phases 1 to 3: the instruction at `pc`, or the first fault met. The opcode byte is read from memory itself at this
step (40_cycle R72, 20_memory R42). -/
def fetch (s : State) : Except FaultRecord Instr :=
  match memRead s.mem s.pc.toNat with
  | .error f => .error f
  | .ok ir =>
    match dispatch ir with
    | .error f => .error f
    | .ok form => fetchOperands s form

/-- The bytes from `pc` up to the end of memory, at most as many as the longest instruction has: what the decoder is
given when it is asked for the instruction at `pc`. -/
def bytesAtPc (s : State) : List Byte := loadBytes s.mem s.pc.toNat 3

end Sys2Proof.Machine
end

