-- ==== Sys2Proof/Machine/Step.lean ====
section
/-! DEFINITION. The one transition of the machine (40_cycle R70, R71), and the placing of an instruction word at `pc`. -/

namespace Sys2Proof.Machine

/-- One step: taken only while RUNNING (40_cycle R71); phases 1 to 3, then the instruction's own phases. A fault in
any phase is taken as the next state (60_exceptions R145). -/
def step (s : State) : Host.Outcome State Fault Refusal :=
  match s.run with
  | .halted => .fault .halted
  | .faulted => .fault .faulted
  | .running => orFault (fetch s) s fun i => exec i s

/-- The state with a table word's bytes at `pc`, where the next step fetches (bytes past address 255 do not exist and
are dropped). -/
def State.withFetchWord (s : State) (nbits w : Nat) : State :=
  { s with mem := storeBytes s.mem s.pc.toNat (tableWordBytes nbits w) }

end Sys2Proof.Machine
end

