-- ==== Sys2Proof/Machine/Sink.lean ====
section
/-! DEFINITION. The text the output sink makes of the printed values (41_halt_load_print R95). It is outside the core:
no step depends on it. -/

namespace Sys2Proof.Machine

/-- The decimal digit of a number below 10. -/
def decimalDigit (d : Nat) : Char := Char.ofNat (48 + d)

/-- The shortest decimal numeral of a byte: no sign, no leading zero, `0` for 0. -/
def numeral (v : Byte) : List Char :=
  let n := v.toNat
  if n < 10 then [decimalDigit n]
  else if n < 100 then [decimalDigit (n / 10), decimalDigit (n % 10)]
  else [decimalDigit (n / 100), decimalDigit (n / 10 % 10), decimalDigit (n % 10)]

/-- Each value's numeral followed by one line feed (0x0A), in the order printed. -/
def renderOut : List Byte → List Char
  | [] => []
  | v :: vs => numeral v ++ '\n' :: renderOut vs

end Sys2Proof.Machine
end

