-- ==== Sys2Proof/Machine/Load.lean ====
section
/-! DEFINITION. The LOAD interface (00_scope R6, 70_reset R171, R172): how a program comes to run. -/

namespace Sys2Proof.Machine

/-- Reset and load: byte `i` of the program at address `i`, everything else as at reset; a program of more than 256
bytes is refused and no state is produced (70_reset R172). -/
def State.load (program : List Byte) : Answer :=
  if program.length ≤ Config.memSize then
    .next { State.reset with mem := storeBytes State.reset.mem 0 program }
  else .refused (.programTooLong program.length)

end Sys2Proof.Machine
end

