-- ==== Sys2Proof/Machine/Run.lean ====
section
/-! DEFINITION. The run loop (40_cycle R79). -/

namespace Sys2Proof.Machine

/-- `while run = RUNNING do step()`, for at most `fuel` steps. The answer's state is HALTED or FAULTED when the run has
ended, and RUNNING when the fuel ran out first: a run may be infinite (40_cycle R79). -/
def runFor : Nat → State → Answer
  | 0, s => .next s
  | fuel + 1, s =>
    match s.run with
    | .running =>
      match step s with
      | .next t => runFor fuel t
      | .fault r => .fault r
      | .refused r => .refused r
    | .halted => .next s
    | .faulted => .next s

end Sys2Proof.Machine
end

