-- ==== Sys2Proof/Safety.lean ====
section
/-! DEFINITION. The terms in which claims speak of states and runs: the state invariants (10_state R27), reachable
states, and how a run ends (41_halt_load_print R93, 40_cycle R79). -/

namespace Sys2Proof.Machine

/-- The state invariants of 10_state R27 that the types do not already give: canonical memory, `pc` at most 256, `fl`
0x00 or 0x01, and a fault record exactly when FAULTED. -/
abbrev State.wf (s : State) : Prop :=
  Memory.wf s.mem = true ∧ s.pc.toNat ≤ 256 ∧ (s.fl = 0x00#8 ∨ s.fl = 0x01#8) ∧
    (s.fault.isSome = true ↔ s.run = .faulted)

/-- A state some run from a loaded program passes through. -/
inductive Reachable : State → Prop where
  | loaded (program : List Byte) (s : State) (h : State.load program = .next s) : Reachable s
  | stepped (s t : State) (h : Reachable s) (hs : step s = .next t) : Reachable t

/-- The run has ended normally (41_halt_load_print R93): HALTED, and only HALTED. -/
abbrev State.endedNormally (s : State) : Prop := s.run = .halted

end Sys2Proof.Machine
end

