-- ==== Sys2Proof/Certificates/Slice0/Obligations.lean ====
section
/-! DEFINITION. The statements for the provers. Each docstring names the rule it formalises, or the section it rests on
and, where the spec marks a point as its own decision, that decision and the model's log entry. -/

namespace Sys2Proof.Claims

open Sys2Proof.Machine

/-- The byte at `pc`. -/
def opcodeAt (s : State) : Byte := Memory.read s.mem s.pc.toNat

/-- The byte at `pc + 1`. -/
def op1At (s : State) : Byte := Memory.read s.mem (s.pc.toNat + 1)

/-- The byte at `pc + 2`. -/
def op2At (s : State) : Byte := Memory.read s.mem (s.pc.toNat + 2)

/-- The 243 illegal opcode bytes, by the ranges 30_encoding R58 lists. -/
def illegalOpcode (b : Byte) : Bool :=
  let n := b.toNat
  decide (n = 0 ∨ (2 ≤ n ∧ n ≤ 16) ∨ (18 ≤ n ∧ n ≤ 68) ∨ (72 ≤ n ∧ n ≤ 79) ∨ (81 ≤ n ∧ n ≤ 83) ∨
    (87 ≤ n ∧ n ≤ 129) ∨ (131 ≤ n ∧ n ≤ 159) ∨ n = 161 ∨ (163 ≤ n ∧ n ≤ 166) ∨ 168 ≤ n)

/-- The opcode bytes of the two-byte instructions (30_encoding R50, R55). -/
def twoByteOpcodes : List Byte := [0x47#8, 0x45#8, 0x46#8, 0x50#8, 0x54#8, 0x55#8, 0x56#8]

/-- The opcode bytes of the three-byte instructions (30_encoding R50, R55). -/
def threeByteOpcodes : List Byte := [0x82#8, 0xA0#8, 0xA2#8, 0xA7#8]

/-- `s` stopped by a fault, every other component as it was (60_exceptions R145). -/
def faulted (f : FaultRecord) (s : State) : State := { s with run := .faulted, fault := some f }

/-- The value of the register an operand byte names; what it says for another byte is never used. -/
def xAt (s : State) (b : Byte) : Byte := if h : b.toNat < 8 then s.x.get ⟨b.toNat, h⟩ else 0#8

/-- The register operand bytes, first operand first (30_encoding R53). -/
def registerOperands : Instr → List Byte
  | .hlt => []
  | .ldi r _ => [r]
  | .prn r => [r]
  | .push r => [r]
  | .pop r => [r]
  | .call r => [r]
  | .ret => []
  | .jmp r => [r]
  | .jeq r => [r]
  | .jne r => [r]
  | .add a b => [a, b]
  | .mul a b => [a, b]
  | .cmp a b => [a, b]

/-- The register an instruction writes (10_state R11, column "writes"). -/
def registersWritten : Instr → List Byte
  | .ldi r _ => [r]
  | .pop r => [r]
  | .add a _ => [a]
  | .mul a _ => [a]
  | .hlt => []
  | .prn _ => []
  | .push _ => []
  | .call _ => []
  | .ret => []
  | .jmp _ => []
  | .jeq _ => []
  | .jne _ => []
  | .cmp _ _ => []

/-- The registers an instruction reads, JEQ's and JNE's only when taken (10_state R11, column "reads"). -/
def registersRead (s : State) : Instr → List Byte
  | .prn r => [r]
  | .push r => [r]
  | .call r => [r]
  | .jmp r => [r]
  | .jeq r => if s.fl.getLsbD 0 = true then [r] else []
  | .jne r => if s.fl.getLsbD 0 = true then [] else [r]
  | .add a b => [a, b]
  | .mul a b => [a, b]
  | .cmp a b => [a, b]
  | .hlt => []
  | .ldi _ _ => []
  | .pop _ => []
  | .ret => []

/-- The fault a step from a RUNNING state raises, if any, by the order of 60_exceptions R146: opcode fetch, dispatch,
operand fetch, register operands, then the handler's own checks. -/
def expectedFault (s : State) : Option FaultRecord :=
  let ir := opcodeAt s
  let operandCount := ir.toNat / 64
  if 255 < s.pc.toNat then some (.outOfBounds 256)
  else if illegalOpcode ir = true then some (.unsupportedOpcode ir)
  else if 255 < s.pc.toNat + operandCount then some (.outOfBounds 256)
  else if 1 ≤ operandCount ∧ 7 < (op1At s).toNat then some (.invalidRegister (op1At s))
  else if ir ∈ [0xA0#8, 0xA2#8, 0xA7#8] ∧ 7 < (op2At s).toNat then some (.invalidRegister (op2At s))
  else if ir ∈ [0x45#8, 0x50#8] ∧ s.sp = 0#8 then some (.outOfBounds (-1))
  else if ir ∈ [0x46#8, 0x11#8] ∧ s.sp = 255#8 then some (.outOfBounds 256)
  else if ir = 0x50#8 ∧ s.pc.toNat = 254 then some (.outOfBounds 256)
  else none

/-- The new `pc` of a step that does not fault, by the table of 40_cycle R76. -/
def expectedPc (s : State) : Nat :=
  let ir := opcodeAt s
  if (opcodeFields ir).setpc = false then s.pc.toNat + ir.toNat / 64 + 1
  else if ir = 0x50#8 ∨ ir = 0x54#8 then (xAt s (op1At s)).toNat
  else if ir = 0x11#8 then (Memory.read s.mem s.sp.toNat).toNat
  else if ir = 0x55#8 then
    if s.fl.getLsbD 0 = true then (xAt s (op1At s)).toNat else s.pc.toNat + 2
  else if s.fl.getLsbD 0 = false then (xAt s (op1At s)).toNat
  else s.pc.toNat + 2

end Sys2Proof.Claims

open Sys2Proof Sys2Proof.Machine Sys2Proof.Claims

/-! ## Encoding -/

/-- The four fields of every byte, from most to least significant (30_encoding section 1, R51), and what each says of a
defined opcode: the operand count, the ALU instructions, the five that set `pc`, and that the fields tell any two
opcodes apart. What the fields do to `pc` is in `PcAfterEveryInstruction`. -/
def Obligations.OpcodeFieldsFollowTheBitLayout : Prop :=
  (∀ ir : Byte,
    ir.toNat = 64 * (opcodeFields ir).n.toNat + 32 * (opcodeFields ir).alu.toNat +
      16 * (opcodeFields ir).setpc.toNat + (opcodeFields ir).id.toNat) ∧
  (∀ i : Instr,
    (opcodeFields (opcodeByte i)).n.toNat = (operandBytes i).length ∧
    ((opcodeFields (opcodeByte i)).alu = true ↔
      ∃ a b, i = .add a b ∨ i = .mul a b ∨ i = .cmp a b) ∧
    ((opcodeFields (opcodeByte i)).setpc = true ↔
      i = .ret ∨ ∃ r, i = .call r ∨ i = .jmp r ∨ i = .jeq r ∨ i = .jne r)) ∧
  (∀ i j : Instr, opcodeFields (opcodeByte i) = opcodeFields (opcodeByte j) → opcodeByte i = opcodeByte j)

/-- The table of 30_encoding section 3 (R55), read on the whole byte, with the operand order of decision D9 (log entry
10): what the decoder makes of any three bytes. -/
def Obligations.DispatchIsOnTheFullByte : Prop :=
  ∀ ir b c : Byte,
    decode [ir, b, c] =
      if ir = 1#8 then .ok (.hlt, [b, c])
      else if ir = 130#8 then .ok (.ldi b c, [])
      else if ir = 71#8 then .ok (.prn b, [c])
      else if ir = 69#8 then .ok (.push b, [c])
      else if ir = 70#8 then .ok (.pop b, [c])
      else if ir = 80#8 then .ok (.call b, [c])
      else if ir = 17#8 then .ok (.ret, [b, c])
      else if ir = 84#8 then .ok (.jmp b, [c])
      else if ir = 85#8 then .ok (.jeq b, [c])
      else if ir = 86#8 then .ok (.jne b, [c])
      else if ir = 160#8 then .ok (.add b c, [])
      else if ir = 162#8 then .ok (.mul b c, [])
      else if ir = 167#8 then .ok (.cmp b c, [])
      else .error (.unsupportedOpcode ir)

/-- Decode and encode agree, both ways, for every instruction and every operand byte (30_encoding sections 1 to 3): no
bit of an encoding is dropped, and no other bytes decode to an instruction. -/
def Obligations.DecodeAndEncodeAgree : Prop :=
  ∀ (bytes : List Byte) (i : Instr) (rest : List Byte),
    decode bytes = .ok (i, rest) ↔ bytes = encode i ++ rest

/-- 30_encoding R50, stated: an instruction is its opcode byte and the operand bytes that byte's top two bits count; it
is 1 byte for HLT and RET, 3 for LDI, ADD, MUL and CMP, 2 for the others, and never 4. -/
def Obligations.LengthComesFromTheOpcodeByte : Prop :=
  ∀ (ir : Byte) (more rest : List Byte) (i : Instr),
    decode (ir :: more) = .ok (i, rest) →
      i.length = 1 + ir.toNat / 64 ∧ (ir :: more).length = i.length + rest.length ∧
      i.length =
        match i with
        | .hlt => 1
        | .ret => 1
        | .ldi _ _ => 3
        | .add _ _ => 3
        | .mul _ _ => 3
        | .cmp _ _ => 3
        | .prn _ => 2
        | .push _ => 2
        | .pop _ => 2
        | .call _ => 2
        | .jmp _ => 2
        | .jeq _ => 2
        | .jne _ => 2

/-- A few words written out bit by bit from the table of 30_encoding section 3, one of each family. -/
def Obligations.SampleWordsDecode : Prop :=
  decode [0b00000001#8] = .ok (.hlt, []) ∧
  decode [0b10000010#8, 0b00000011#8, 0b11111111#8] = .ok (.ldi 3#8 255#8, []) ∧
  decode [0b01000111#8, 0b00000111#8] = .ok (.prn 7#8, []) ∧
  decode [0b01000101#8, 0b00000001#8] = .ok (.push 1#8, []) ∧
  decode [0b01010101#8, 0b00000010#8] = .ok (.jeq 2#8, []) ∧
  decode [0b10100010#8, 0b00000100#8, 0b00000101#8] = .ok (.mul 4#8 5#8, []) ∧
  decode [0b00100001#8] = .error (.unsupportedOpcode 33#8)

/-! ## The step -/

/-- A step runs the instruction the decoder reads at `pc` (40_cycle section 1). -/
def Obligations.StepRunsTheDecodedInstruction : Prop :=
  ∀ (s : State) (i : Instr) (rest : List Byte),
    s.run = .running → decode (bytesAtPc s) = .ok (i, rest) → step s = exec i s

/-- An instruction whose encoding is stored at `pc` is what the next step executes (20_memory sections 1 and 6,
40_cycle section 1), wherever in memory it fits. -/
def Obligations.StoredInstructionIsExecuted : Prop :=
  ∀ (s : State) (i : Instr),
    s.wf → s.run = .running → s.pc.toNat + i.length ≤ 256 →
      step { s with mem := storeBytes s.mem s.pc.toNat (encode i) } =
        exec i { s with mem := storeBytes s.mem s.pc.toNat (encode i) }

/-- 40_cycle R71, stated: a step is taken exactly when RUNNING; a HALTED or FAULTED core has no next state. -/
def Obligations.StepsExactlyWhileRunning : Prop :=
  ∀ s : State, (∃ t, step s = .next t) ↔ s.run = .running

/-- The table of 40_cycle section 1 (R76): the new `pc` of every step that does not fault, with no wrap at the top of
memory (decision D2, log entry 4) and the not-taken JEQ and JNE of 90_conflicts C2 (log entry 17). -/
def Obligations.PcAfterEveryInstruction : Prop :=
  ∀ s t : State, s.run = .running → step s = .next t → t.run ≠ .faulted → t.pc.toNat = expectedPc s

/-- 40_cycle R77, stated: HLT advances `pc` by one and then halts, and nothing else changes; so does a step that
fetches it. -/
def Obligations.HltAdvancesThenHalts : Prop :=
  ∀ s : State,
    exec .hlt s = .next { s with pc := s.pc + 1#9, run := .halted } ∧
    (s.run = .running → s.pc.toNat ≤ 255 → opcodeAt s = 0x01#8 →
      step s = .next { s with pc := s.pc + 1#9, run := .halted })

/-- HLT is the only instruction that sets HALTED, and dispatch is on its whole byte (41_halt_load_print, HLT). -/
def Obligations.OnlyHltHalts : Prop :=
  ∀ s t : State,
    step s = .next t → (t.run = .halted ↔ s.pc.toNat ≤ 255 ∧ opcodeAt s = 0x01#8)

/-! ## Reset, load and run -/

/-- The state after reset and load, component by component (10_state section 8, R26; 70_reset sections 1 and 2). The
value 0 of `fl` rests on decision D8 (log entry 9) and the refusal of a program of more than 256 bytes on D13 (log entry
14). -/
def Obligations.ResetAndLoadGiveTheStartState : Prop :=
  ∀ program : List Byte,
    (program.length ≤ 256 →
      ∃ t, State.load program = .next t ∧
        (∀ r : Fin 8, t.x.get r = if r.val = 7 then 0xF4#8 else 0#8) ∧ t.fl = 0#8 ∧ t.pc = 0#9 ∧
        t.sp = 0xF4#8 ∧ t.run = .running ∧ t.fault = none ∧ t.out = [] ∧
        ∀ a, a < 256 → Memory.read t.mem a = program.getD a 0#8) ∧
    (256 < program.length → State.load program = .refused (.programTooLong program.length))

/-- 20_memory R37, stated: (a) `pc` is 0 at reset and byte `i` of the program is at address `i`; (b) `sp` starts at 0xF4
and the first PUSH or CALL writes address 0xF3 and no other; (c) every address the loader did not write holds 0. -/
def Obligations.AddressMapAtReset : Prop :=
  ∀ (program : List Byte) (t : State),
    State.load program = .next t →
      t.pc = 0#9 ∧ (∀ a, (h : a < program.length) → Memory.read t.mem a = program[a]) ∧
      (∀ a, program.length ≤ a → Memory.read t.mem a = 0#8) ∧ t.sp = 0xF4#8 ∧
      ∀ (r : Byte) (h : r.toNat < 8),
        (∃ u, exec (.push r) t = .next u ∧ u.sp = 0xF3#8 ∧
          ∀ a, Memory.read u.mem a = if a = 0xF3 then t.x.get ⟨r.toNat, h⟩ else Memory.read t.mem a) ∧
        (∃ u, exec (.call r) t = .next u ∧ u.sp = 0xF3#8 ∧
          ∀ a, Memory.read u.mem a = if a = 0xF3 then 2#8 else Memory.read t.mem a)

/-- Every state a load produces, the reset state among them, satisfies the invariants of 10_state section 8 (R27). -/
def Obligations.LoadedStatesSatisfyTheInvariants : Prop :=
  State.reset.wf ∧ ∀ (program : List Byte) (t : State), State.load program = .next t → t.wf

/-- Every step keeps the invariants of 10_state section 8 (R27), a faulting step too: canonical memory, `pc` at most
256, `fl` 0x00 or 0x01, a fault record exactly when FAULTED. -/
def Obligations.EveryStepKeepsTheInvariants : Prop :=
  ∀ s t : State, s.wf → step s = .next t → t.wf

/-- The run loop of 40_cycle section 2 (R79) never stops in any way but by ending: under any fuel it answers a state;
a run that has ended stays ended in that state however much fuel is left (40_cycle R78, decision D14), and a further
step answers the stop's own name (the names are the model's, log entry 2). -/
def Obligations.RunEndsOnceAndStays : Prop :=
  ∀ (fuel : Nat) (s : State),
    ∃ t, runFor fuel s = .next t ∧ (t.run ≠ .running → ∀ more, runFor (fuel + more) s = .next t) ∧
      (t.run = .halted → step t = .fault .halted) ∧ (t.run = .faulted → step t = .fault .faulted)

/-- A JMP to its own address runs for ever and changes nothing (43_control, JMP; 40_cycle section 2). -/
def Obligations.SelfJumpRunsForEver : Prop :=
  ∀ (s : State) (r : Fin 8),
    s.run = .running → s.pc.toNat ≤ 254 → opcodeAt s = 0x54#8 → op1At s = BitVec.ofNat 8 r.val →
      (s.x.get r).toNat = s.pc.toNat → step s = .next s ∧ ∀ fuel, runFor fuel s = .next s

/-! ## Faults -/

/-- 30_encoding R58 and 60_exceptions R143, stated: an illegal opcode byte raises UnsupportedOpcode with that byte,
leaves `pc` where it is, depends on no other byte of memory, and is followed by no further step; and no other byte
raises it. -/
def Obligations.IllegalOpcodeStopsTheCore : Prop :=
  ∀ s : State,
    s.run = .running → s.pc.toNat ≤ 255 →
      (illegalOpcode (opcodeAt s) = true →
        ∃ t, step s = .next t ∧ t.run = .faulted ∧ t.fault = some (.unsupportedOpcode (opcodeAt s)) ∧
          t.pc = s.pc ∧ (∀ u, step t ≠ .next u) ∧
          ∀ m : Memory, Memory.read m s.pc.toNat = opcodeAt s →
            step { s with mem := m } = .next { t with mem := m }) ∧
      (illegalOpcode (opcodeAt s) = false → s.fault = none →
        ∀ t b, step s = .next t → t.fault ≠ some (.unsupportedOpcode b))

/-- The fetch and operand-fetch faults at the top of memory, before any register index is looked at (40_cycle section 1;
decisions D2, D4, D9 and D10, log entries 4, 6, 10 and 11); HLT and RET in the last byte execute. -/
def Obligations.FetchPastMemoryFaults : Prop :=
  ∀ s : State,
    s.run = .running →
      (256 ≤ s.pc.toNat → step s = .next (faulted (.outOfBounds s.pc.toNat) s)) ∧
      (s.pc.toNat = 255 → opcodeAt s ∈ twoByteOpcodes ++ threeByteOpcodes →
        step s = .next (faulted (.outOfBounds 256) s)) ∧
      (s.pc.toNat = 254 → opcodeAt s ∈ threeByteOpcodes → step s = .next (faulted (.outOfBounds 256) s)) ∧
      (s.pc.toNat = 255 → opcodeAt s = 0x01#8 → step s = exec .hlt s) ∧
      (s.pc.toNat = 255 → opcodeAt s = 0x11#8 → step s = exec .ret s)

/-- A register operand above 7 raises InvalidRegister with the first such byte, before any check of the handler, taken
or not, and nothing else changes (40_cycle section 1; decisions D4, D6, D10 and D19, log entries 6, 7, 11 and 17). -/
def Obligations.BadRegisterIndexFaults : Prop :=
  ∀ (i : Instr) (s : State) (b : Byte),
    (registerOperands i).find? (fun c => decide (7 < c.toNat)) = some b →
      exec i s = .next (faulted (.invalidRegister b) s)

/-- The handler's own faults: PUSH and CALL at `sp = 0`, POP and RET at `sp = 255`, CALL whose return address is no
byte; nothing else changes (42_stack, 43_control; decisions D3, D4, D7 and D10, log entries 5, 6, 8 and 11). -/
def Obligations.StackAndReturnAddressFaults : Prop :=
  ∀ (s : State) (r : Byte),
    r.toNat < 8 →
      (s.sp = 0#8 → exec (.push r) s = .next (faulted (.outOfBounds (-1)) s)) ∧
      (s.sp = 0#8 → exec (.call r) s = .next (faulted (.outOfBounds (-1)) s)) ∧
      (s.sp = 255#8 → exec (.pop r) s = .next (faulted (.outOfBounds 256) s)) ∧
      (s.sp = 255#8 → exec .ret s = .next (faulted (.outOfBounds 256) s)) ∧
      (s.sp ≠ 0#8 → 254 ≤ s.pc.toNat →
        exec (.call r) s = .next (faulted (.outOfBounds (s.pc.toNat + 2)) s))

/-- Which fault a step raises, for every cause and in the order of priority, and that it raises none otherwise
(60_exceptions sections 1 and 3, R142 and R146; decisions D2, D3, D6, D7, D9, D10 and D11, log entries 4, 5, 7, 8, 10, 11
and 12). -/
def Obligations.FaultsFollowTheCausesAndPriority : Prop :=
  ∀ s t : State,
    s.wf → s.run = .running → step s = .next t →
      t.fault = expectedFault s ∧ (t.run = .faulted ↔ (expectedFault s).isSome = true)

/-- Faults are precise: a faulting step changes nothing but `run` and `fault` (60_exceptions section 2, R145; decision
D4, log entry 6). -/
def Obligations.FaultsArePrecise : Prop :=
  ∀ s t : State, step s = .next t → t.run = .faulted → ∃ f, t = { s with run := .faulted, fault := some f }

/-! ## Memory -/

/-- 20_memory R36, stated: a byte read is the last byte written there, or its reset value; a write changes that one cell
only; every address 0 to 255 is readable and writable alike; PRN does not go through memory. -/
def Obligations.MemoryIsOrdinaryRam : Prop :=
  (∀ (m : Memory) (a : Int), Memory.wf m = true → 0 ≤ a → a ≤ 255 → ∀ v : Byte,
    ∃ m', memWrite m a v = .ok m' ∧ Memory.wf m' = true ∧ memRead m' a = .ok v ∧
      ∀ b : Int, b ≠ a → memRead m' b = memRead m b) ∧
  (∀ a : Int, 0 ≤ a → a ≤ 255 → memRead State.reset.mem a = .ok 0#8) ∧
  (∀ (r : Byte) (s t : State), exec (.prn r) s = .next t → t.mem = s.mem)

/-- The two primitives outside 0 to 255: OutOfBounds with the address, never a wrap (20_memory section 1). -/
def Obligations.PrimitivesFaultOutOfRange : Prop :=
  ∀ (m : Memory) (a : Int) (v : Byte),
    (a < 0 ∨ 255 < a) → memRead m a = .error (.outOfBounds a) ∧ memWrite m a v = .error (.outOfBounds a)

/-- Two canonical memories that read alike are the same data (the model's form of 20_memory section 1's cells, log entry
3). -/
def Obligations.EqualMemoriesAreEqualData : Prop :=
  ∀ m m' : Memory,
    Memory.wf m = true → Memory.wf m' = true → (∀ a, a < 256 → Memory.read m a = Memory.read m' a) → m = m'

/-- The only stores the core makes are PUSH's and CALL's, at `sp - 1` (20_memory section 1, R33). -/
def Obligations.OnlyPushAndCallStore : Prop :=
  ∀ s t : State,
    s.wf → step s = .next t → ∀ a, Memory.read t.mem a ≠ Memory.read s.mem a →
      (opcodeAt s = 0x45#8 ∨ opcodeAt s = 0x50#8) ∧ a + 1 = s.sp.toNat

/-- A byte PUSH stores is what the next fetch of that address reads, and a PUSH that overwrites its own bytes executes
as it was fetched (20_memory section 6, R42). -/
def Obligations.NextFetchSeesTheStore : Prop :=
  ∀ (s : State) (r : Fin 8),
    s.wf → s.run = .running → s.pc.toNat ≤ 254 → opcodeAt s = 0x45#8 → op1At s = BitVec.ofNat 8 r.val →
      s.sp ≠ 0#8 →
      ∃ t, step s = .next t ∧ t.run = .running ∧ t.pc.toNat = s.pc.toNat + 2 ∧
        Memory.read t.mem (s.sp.toNat - 1) = s.x.get r ∧
        (s.sp.toNat = s.pc.toNat + 3 → illegalOpcode (s.x.get r) = true →
          step t = .next (faulted (.unsupportedOpcode (s.x.get r)) t))

/-! ## Registers, flags, stack pointer, output -/

/-- From the table of 10_state section 1 (R11): an instruction writes no register but those its "writes" column names, and
its whole effect depends on no register but those its "reads" column names, whatever the others hold. That every
register index completes is in the statements of the instructions. -/
def Obligations.RegistersReadAndWritten : Prop :=
  ∀ (i : Instr) (s t t' : State) (y : Vector Byte 8),
    s.run = .running →
    (∀ k : Fin 8, k.val ∈ (registersRead s i).map BitVec.toNat → y.get k = s.x.get k) →
    exec i s = .next t → exec i { s with x := y } = .next t' →
      (∀ k : Fin 8, k.val ∉ (registersWritten i).map BitVec.toNat →
        t.x.get k = s.x.get k ∧ t'.x.get k = y.get k) ∧
      (t.run ≠ .faulted →
        ∀ k : Fin 8, k.val ∈ (registersWritten i).map BitVec.toNat → t'.x.get k = t.x.get k) ∧
      t' = { t with x := t'.x }

/-- `sp` moves by exactly one, down by PUSH and CALL, up by POP and RET, and in no other step; a faulting step leaves it
(10_state section 3, R15; decisions D3 and D4, log entries 5 and 6). -/
def Obligations.StackPointerMovesByOne : Prop :=
  ∀ s t : State,
    step s = .next t →
      (t.run = .faulted → t.sp = s.sp) ∧
      (t.run ≠ .faulted →
        (t.sp.toNat : Int) = s.sp.toNat +
          (if opcodeAt s ∈ [0x45#8, 0x50#8] then -1 else if opcodeAt s ∈ [0x46#8, 0x11#8] then 1 else 0))

/-- Only CMP writes a flag, and only bit 0 (10_state section 4, R17; decision D8, log entry 9). -/
def Obligations.OnlyCmpWritesTheFlag : Prop :=
  ∀ s t : State,
    step s = .next t →
      (opcodeAt s ≠ 0xA7#8 ∨ t.run = .faulted → t.fl = s.fl) ∧
      ∀ k, 1 ≤ k → t.fl.getLsbD k = s.fl.getLsbD k

/-- 10_state R21, stated: the output is empty at reset and only grows, by PRN and by the one value of its register; no
step reads it, and it influences no later state. -/
def Obligations.OutputIsWriteOnlyAndPrnsAlone : Prop :=
  State.reset.out = [] ∧
  ∀ s t : State,
    step s = .next t →
      ∃ printed : List Byte,
        t.out = s.out ++ printed ∧
        (printed ≠ [] →
          opcodeAt s = 0x47#8 ∧ ∃ r : Fin 8, op1At s = BitVec.ofNat 8 r.val ∧ printed = [s.x.get r]) ∧
        ∀ earlier : List Byte, step { s with out := earlier } = .next { t with out := earlier ++ printed }

/-! ## The instructions -/

/-- LDI writes its immediate, any byte, unchanged, and advances by three (41_halt_load_print, LDI). -/
def Obligations.LdiWritesTheImmediate : Prop :=
  ∀ (s : State) (r v : Byte) (h : r.toNat < 8),
    exec (.ldi r v) s = .next { s with x := s.x.set r.toNat v h, pc := s.pc + 3#9 }

/-- PRN emits its register's value, once, and advances by two (41_halt_load_print, PRN; decision D12, log entry 13: the
emission never fails). -/
def Obligations.PrnEmitsTheRegister : Prop :=
  ∀ (s : State) (r : Byte) (h : r.toNat < 8),
    exec (.prn r) s = .next { s with out := s.out ++ [s.x.get ⟨r.toNat, h⟩], pc := s.pc + 2#9 }

/-- 41_halt_load_print R90, stated: HLT, LDI and PRN neither read nor write data memory, the stack pointer or the flags;
their sets-PC bit is 0 and they take the generic advance; HLT has no operand, LDI two, PRN one. -/
def Obligations.HltLdiPrnUseNoMemoryStackOrFlag : Prop :=
  ∀ (i : Instr) (s : State),
    (i = .hlt ∨ (∃ r v, i = .ldi r v) ∨ ∃ r, i = .prn r) →
      (∃ t, exec i s = .next t ∧ t.mem = s.mem ∧ t.sp = s.sp ∧ t.fl = s.fl ∧
        (i.wellFormed = true → t.pc = s.pc + BitVec.ofNat 9 ((operandBytes i).length + 1)) ∧
        ∀ (m : Memory) (sp fl : Byte),
          exec i { s with mem := m, sp := sp, fl := fl } = .next { t with mem := m, sp := sp, fl := fl }) ∧
      (opcodeFields (opcodeByte i)).setpc = false ∧
      (operandBytes i).length = (match i with | .ldi _ _ => 2 | .prn _ => 1 | _ => 0)

/-- PUSH stores its register at `sp - 1`, lowers `sp` by one and advances by two (42_stack, PUSH). -/
def Obligations.PushStoresBelowTheStackPointer : Prop :=
  ∀ (s : State) (r : Byte) (h : r.toNat < 8),
    s.wf → s.sp ≠ 0#8 →
      ∃ m, exec (.push r) s = .next { s with mem := m, sp := s.sp - 1#8, pc := s.pc + 2#9 } ∧
        ∀ a, Memory.read m a =
          if a = s.sp.toNat - 1 then s.x.get ⟨r.toNat, h⟩ else Memory.read s.mem a

/-- POP loads its register from `sp`, raises `sp` by one and advances by two (42_stack, POP). -/
def Obligations.PopLoadsFromTheStackPointer : Prop :=
  ∀ (s : State) (r : Byte) (h : r.toNat < 8),
    s.sp ≠ 255#8 →
      exec (.pop r) s = .next { s with
        x := s.x.set r.toNat (Memory.read s.mem s.sp.toNat) h, sp := s.sp + 1#8, pc := s.pc + 2#9 }

/-- CALL stores `pc + 2` at `sp - 1`, lowers `sp` by one and goes to its register's address (43_control, CALL). -/
def Obligations.CallPushesTheReturnAddress : Prop :=
  ∀ (s : State) (r : Byte) (h : r.toNat < 8),
    s.wf → s.sp ≠ 0#8 → s.pc.toNat ≤ 253 →
      ∃ m pc', exec (.call r) s = .next { s with mem := m, sp := s.sp - 1#8, pc := pc' } ∧
        pc'.toNat = (s.x.get ⟨r.toNat, h⟩).toNat ∧
        ∀ a, Memory.read m a =
          if a = s.sp.toNat - 1 then BitVec.ofNat 8 (s.pc.toNat + 2) else Memory.read s.mem a

/-- RET goes to the byte at `sp` and raises `sp` by one (43_control, RET). -/
def Obligations.RetGoesToThePoppedByte : Prop :=
  ∀ s : State,
    s.sp ≠ 255#8 →
      ∃ pc', exec .ret s = .next { s with sp := s.sp + 1#8, pc := pc' } ∧
        pc'.toNat = (Memory.read s.mem s.sp.toNat).toNat

/-- JMP goes to its register's address; JEQ does so exactly when the flag is set and JNE exactly when it is clear, and
otherwise each advances by two; nothing else changes (43_control, JMP, JEQ, JNE; 90_conflicts C2, log entry 17). -/
def Obligations.JumpsGoToTheRegister : Prop :=
  ∀ (s : State) (r : Byte) (h : r.toNat < 8),
    ∃ target : PcWord, target.toNat = (s.x.get ⟨r.toNat, h⟩).toNat ∧
      exec (.jmp r) s = .next { s with pc := target } ∧
      exec (.jeq r) s = .next { s with pc := if s.fl.getLsbD 0 = true then target else s.pc + 2#9 } ∧
      exec (.jne r) s = .next { s with pc := if s.fl.getLsbD 0 = true then s.pc + 2#9 else target }

/-- 43_control R110, stated: CALL, RET, JMP, JEQ and JNE have the sets-PC bit; when they transfer, `pc` is the full
address held in the named register or popped from the stack, always 0 to 255, and the next step runs the instruction
there; none of them writes a general register or a flag. -/
def Obligations.ControlTransfersGoToAByteAddress : Prop :=
  ∀ (i : Instr) (s t : State) (r : Byte),
    (i = .call r ∨ i = .ret ∨ i = .jmp r ∨ i = .jeq r ∨ i = .jne r) →
    s.run = .running → exec i s = .next t →
      (opcodeFields (opcodeByte i)).setpc = true ∧ t.x = s.x ∧ t.fl = s.fl ∧
      (t.run ≠ .faulted →
        ((i = .jeq r ∧ s.fl.getLsbD 0 = false) ∨ (i = .jne r ∧ s.fl.getLsbD 0 = true)) ∨
        t.pc.toNat = (if i = .ret then Memory.read s.mem s.sp.toNat else xAt s r).toNat) ∧
      ∀ (j : Instr) (rest : List Byte),
        t.run = .running → decode (bytesAtPc t) = .ok (j, rest) → step t = exec j t

/-- 44_alu R130, stated: ADD and MUL keep the exact result modulo 256, the same for unsigned and two's-complement
readings, in the first register, with no fault and no flag on overflow; CMP writes only the flag, by equality; all three
advance by three, have the ALU bit and not the sets-PC bit, and touch no memory and no stack pointer. -/
def Obligations.AluArithmeticLaws : Prop :=
  ∀ (s : State) (a b : Byte) (ha : a.toNat < 8) (hb : b.toNat < 8),
    let u := s.x.get ⟨a.toNat, ha⟩
    let v := s.x.get ⟨b.toNat, hb⟩
    (∃ w : Byte, exec (.add a b) s = .next { s with x := s.x.set a.toNat w ha, pc := s.pc + 3#9 } ∧
      w.toNat = (u.toNat + v.toNat) % 256 ∧ w.toInt = (u.toInt + v.toInt).bmod 256) ∧
    (∃ w : Byte, exec (.mul a b) s = .next { s with x := s.x.set a.toNat w ha, pc := s.pc + 3#9 } ∧
      w.toNat = (u.toNat * v.toNat) % 256 ∧ w.toInt = (u.toInt * v.toInt).bmod 256) ∧
    (∃ f : Byte, exec (.cmp a b) s = .next { s with fl := f, pc := s.pc + 3#9 } ∧
      f.getLsbD 0 = decide (u = v)) ∧
    (∀ i : Instr, (i = .add a b ∨ i = .mul a b ∨ i = .cmp a b) →
      (opcodeFields (opcodeByte i)).alu = true ∧ (opcodeFields (opcodeByte i)).setpc = false ∧
        operandBytes i = [a, b])

/-- CMP leaves bits 7 to 1 of `fl` alone, so a legal `fl` stays 0x00 or 0x01 (44_alu, CMP; decision D8, log entry 9). -/
def Obligations.CmpWritesBitZeroOnly : Prop :=
  ∀ (s : State) (a b : Byte) (ha : a.toNat < 8) (hb : b.toNat < 8),
    ∃ f : Byte, exec (.cmp a b) s = .next { s with fl := f, pc := s.pc + 3#9 } ∧
      (∀ k, 1 ≤ k → f.getLsbD k = s.fl.getLsbD k) ∧
      (s.fl = 0#8 ∨ s.fl = 1#8 →
        f = if s.x.get ⟨a.toNat, ha⟩ = s.x.get ⟨b.toNat, hb⟩ then 1#8 else 0#8)

/-! ## Frames -/

/-- Frame of LDI, ADD and MUL (41_halt_load_print, 44_alu): only the destination register and `pc` may change; a bad
operand changes nothing but `run` and `fault`. -/
def Obligations.FrameOfRegisterWriters : Prop :=
  ∀ (i : Instr) (s t : State) (d v : Byte),
    (i = .ldi d v ∨ i = .add d v ∨ i = .mul d v) → exec i s = .next t →
      (∀ k : Fin 8, k.val ≠ d.toNat → t.x.get k = s.x.get k) ∧ t.fl = s.fl ∧ t.sp = s.sp ∧ t.out = s.out ∧
      (∀ a, Memory.read t.mem a = Memory.read s.mem a) ∧
      ((i.wellFormed = true ∧ t.run = s.run ∧ t.fault = s.fault) ∨
        (i.wellFormed = false ∧ t.run = .faulted ∧ t.x = s.x ∧ t.pc = s.pc))

/-- Frame of HLT, PRN, CMP, JMP, JEQ and JNE (41_halt_load_print, 43_control, 44_alu): no register, no stack pointer, no
byte of memory; the flag only by CMP and only bit 0, the output only by PRN, `run` only by HLT or a bad operand. -/
def Obligations.FrameOfNonStoringInstructions : Prop :=
  ∀ (i : Instr) (s t : State) (a b : Byte),
    (i = .hlt ∨ i = .prn a ∨ i = .cmp a b ∨ i = .jmp a ∨ i = .jeq a ∨ i = .jne a) → exec i s = .next t →
      t.x = s.x ∧ t.sp = s.sp ∧ (∀ c, Memory.read t.mem c = Memory.read s.mem c) ∧
      (i ≠ .cmp a b → t.fl = s.fl) ∧ (∀ k, 1 ≤ k → t.fl.getLsbD k = s.fl.getLsbD k) ∧
      (i ≠ .prn a → t.out = s.out) ∧
      ((i.wellFormed = true ∧ (i ≠ .hlt → t.run = s.run) ∧ t.fault = s.fault) ∨
        (i.wellFormed = false ∧ t.run = .faulted ∧ t.fl = s.fl ∧ t.out = s.out ∧ t.pc = s.pc))

/-- Frame of POP and RET (42_stack, 43_control): POP's destination register, `sp` and `pc` may change; no flag, no
output and no byte of memory does; a fault changes nothing but `run` and `fault`. -/
def Obligations.FrameOfPopAndRet : Prop :=
  ∀ (i : Instr) (s t : State) (r : Byte),
    (i = .pop r ∨ i = .ret) → exec i s = .next t →
      (∀ k : Fin 8, (i = .pop r → k.val ≠ r.toNat) → t.x.get k = s.x.get k) ∧ t.fl = s.fl ∧ t.out = s.out ∧
      (∀ a, Memory.read t.mem a = Memory.read s.mem a) ∧
      ((t.run = s.run ∧ t.fault = s.fault) ∨ (t.run = .faulted ∧ t.x = s.x ∧ t.sp = s.sp ∧ t.pc = s.pc))

/-- Frame of PUSH and CALL (42_stack, 43_control): `sp`, `pc` and the one byte at the push's slot may change; every
other byte of memory reads as before, and every byte does when there is no slot or the instruction faults; no register,
flag or output changes. -/
def Obligations.FrameOfPushAndCall : Prop :=
  ∀ (i : Instr) (s t : State) (r : Byte),
    s.wf → (i = .push r ∨ i = .call r) → exec i s = .next t →
      t.x = s.x ∧ t.fl = s.fl ∧ t.out = s.out ∧
      (∀ slot, pushSlot s.sp = .ok slot →
        ∀ a, a ≠ slot.toNat → Memory.read t.mem a = Memory.read s.mem a) ∧
      ((∃ slot, pushSlot s.sp = .ok slot ∧ t.sp = slot ∧ t.run = s.run ∧ t.fault = s.fault) ∨
        (t.run = .faulted ∧ t.sp = s.sp ∧ t.pc = s.pc ∧ ∀ a, Memory.read t.mem a = Memory.read s.mem a))

/-! ## Round trips -/

/-- PUSH then POP moves the value and restores `sp`, whatever runs in between, provided it leaves `sp` and the pushed
byte as they were (42_stack, under POP, R103, with its derived condition `sp >= 1`). -/
def Obligations.PushThenPopMovesTheValue : Prop :=
  ∀ (s : State) (a b : Byte) (ha : a.toNat < 8) (hb : b.toNat < 8),
    s.wf → s.sp ≠ 0#8 →
      ∃ t, exec (.push a) s = .next t ∧
        ∀ t' : State, t'.sp = t.sp → Memory.read t'.mem t.sp.toNat = Memory.read t.mem t.sp.toNat →
          ∃ u, exec (.pop b) t' = .next u ∧ u.x = t'.x.set b.toNat (s.x.get ⟨a.toNat, ha⟩) hb ∧ u.sp = s.sp

/-- CALL followed eventually by RET returns to the address after CALL's operand and restores `sp`, provided what runs in
between leaves `sp` balanced and the return address's byte as it was (43_control, R116, derived there). -/
def Obligations.CallThenRetReturns : Prop :=
  ∀ (s : State) (r : Byte),
    r.toNat < 8 → s.wf → s.sp ≠ 0#8 → s.pc.toNat ≤ 253 →
      ∃ t, exec (.call r) s = .next t ∧
        ∀ t' : State, t'.sp = t.sp → Memory.read t'.mem t.sp.toNat = Memory.read t.mem t.sp.toNat →
          ∃ u, exec .ret t' = .next u ∧ u.pc.toNat = s.pc.toNat + 2 ∧ u.sp = s.sp

/-! ## The output's text -/

/-- The sink's text: one value's text is its numeral and one line feed (0x0A), each numeral is the shortest decimal one of
its value, the values' texts stand in the order printed, and the text tells any two outputs apart (41_halt_load_print,
R95; decision D12, log entry 13). -/
def Obligations.RenderedTextDeterminesTheValues : Prop :=
  (∀ v : Byte,
    (numeral v).foldl (fun n c => 10 * n + (c.toNat - 48)) 0 = v.toNat ∧
    (∀ c ∈ numeral v, 48 ≤ c.toNat ∧ c.toNat ≤ 57) ∧
    ((numeral v).length = 1 ∨ ∃ c cs, numeral v = c :: cs ∧ c ≠ '0')) ∧
  renderOut [] = [] ∧
  (∀ v : Byte, renderOut [v] = numeral v ++ [Char.ofNat 0x0A]) ∧
  (∀ vs ws : List Byte, renderOut (vs ++ ws) = renderOut vs ++ renderOut ws) ∧
  (∀ vs ws : List Byte, renderOut vs = renderOut ws → vs = ws)
end

