-- ==== Sys2Proof/Laws/Decode.lean ====
section
/-! SUPPORT. All the opcode lookup and the decoder can answer. -/

namespace Sys2Proof

/-- A hit of the lookup is a row of the table with that whole byte. -/
theorem lookupRow_some {ir : Byte} {form : Form} {rows : List OpcodeRow} (h : lookupRow ir rows = some form) :
    ∃ row ∈ rows, ir = row.value ∧ form = row.form := by
  induction rows with
  | nil => cases h
  | cons row rows ih =>
    unfold lookupRow at h
    split at h
    · rename_i he
      cases h
      exact ⟨row, List.mem_cons_self, he, rfl⟩
    · obtain ⟨r, hr, hs⟩ := ih h
      exact ⟨r, List.mem_cons_of_mem _ hr, hs⟩

/-- The thirteen hits of the lookup, and nothing else. -/
theorem lookupOpcode_some {ir : Byte} {form : Form} (h : lookupOpcode ir = some form) :
    (ir = 0x01#8 ∧ form = .noOperand .hlt) ∨
    (ir = 0x82#8 ∧ form = .twoOperands .ldi) ∨
    (ir = 0x47#8 ∧ form = .oneOperand .prn) ∨
    (ir = 0x45#8 ∧ form = .oneOperand .push) ∨
    (ir = 0x46#8 ∧ form = .oneOperand .pop) ∨
    (ir = 0x50#8 ∧ form = .oneOperand .call) ∨
    (ir = 0x11#8 ∧ form = .noOperand .ret) ∨
    (ir = 0x54#8 ∧ form = .oneOperand .jmp) ∨
    (ir = 0x55#8 ∧ form = .oneOperand .jeq) ∨
    (ir = 0x56#8 ∧ form = .oneOperand .jne) ∨
    (ir = 0xA0#8 ∧ form = .twoOperands .add) ∨
    (ir = 0xA2#8 ∧ form = .twoOperands .mul) ∨
    (ir = 0xA7#8 ∧ form = .twoOperands .cmp) := by
  obtain ⟨row, hm, rfl, rfl⟩ := lookupRow_some h
  simp only [opcodeTable, List.mem_cons, List.not_mem_nil, or_false] at hm
  rcases hm with rfl | rfl | rfl | rfl | rfl | rfl | rfl | rfl | rfl | rfl | rfl | rfl | rfl <;> simp

/-- The lookup of an instruction's own opcode byte, by the number of its operands. -/
theorem lookupOpcode_opcodeByte (i : Instr) :
    (lookupOpcode (opcodeByte i) = some (.noOperand i) ∧ operandBytes i = []) ∨
      (∃ make b, lookupOpcode (opcodeByte i) = some (.oneOperand make) ∧ operandBytes i = [b] ∧ i = make b) ∨
      (∃ make b c, lookupOpcode (opcodeByte i) = some (.twoOperands make) ∧ operandBytes i = [b, c] ∧ i = make b c) := by
  cases i
  case hlt | ret => exact .inl ⟨rfl, rfl⟩
  case prn | push | pop | call | jmp | jeq | jne => exact .inr (.inl ⟨_, _, rfl, rfl, rfl⟩)
  case ldi | add | mul | cmp => exact .inr (.inr ⟨_, _, _, rfl, rfl, rfl⟩)

/-- A byte outside the table is rejected by name, whatever follows it. -/
theorem decode_miss {ir : Byte} (h : lookupOpcode ir = none) (more : List Byte) :
    decode (ir :: more) = .error (.unsupportedOpcode ir) := by
  simp only [decode, h]

/-- A hit with no operand takes the opcode byte alone. -/
theorem decode_noOperand {ir : Byte} {i : Instr} (h : lookupOpcode ir = some (.noOperand i)) (more : List Byte) :
    decode (ir :: more) = .ok (i, more) := by
  simp only [decode, h]

/-- A hit with one operand takes the next byte, if there is one. -/
theorem decode_oneOperand {ir : Byte} {make : Byte → Instr} (h : lookupOpcode ir = some (.oneOperand make)) :
    decode [ir] = .error (.missingOperand 1) ∧
      ∀ b more, decode (ir :: b :: more) = .ok (make b, more) := by
  constructor <;> intros <;> simp only [decode, h]

/-- A hit with two operands takes the next two bytes, if there are two. -/
theorem decode_twoOperands {ir : Byte} {make : Byte → Byte → Instr}
    (h : lookupOpcode ir = some (.twoOperands make)) :
    decode [ir] = .error (.missingOperand 1) ∧ (∀ b, decode [ir, b] = .error (.missingOperand 2)) ∧
      ∀ b c more, decode (ir :: b :: c :: more) = .ok (make b c, more) := by
  refine ⟨?_, ?_, ?_⟩ <;> intros <;> simp only [decode, h]

namespace Machine

/-- Dispatch answers the lookup, or UnsupportedOpcode. -/
theorem dispatch_cases (ir : Byte) :
    (∃ form, lookupOpcode ir = some form ∧ dispatch ir = .ok form) ∨
      (lookupOpcode ir = none ∧ dispatch ir = .error (.unsupportedOpcode ir)) := by
  unfold dispatch
  cases h : lookupOpcode ir with
  | some form => exact .inl ⟨form, rfl, rfl⟩
  | none => exact .inr ⟨rfl, rfl⟩

end Machine

end Sys2Proof
end

