-- ==== Sys2Proof/Laws/Memory.lean ====
section
/-! SUPPORT. The laws of memory: a read after a write, and the canonical form every operation keeps. -/

namespace Sys2Proof.Machine

@[simp] theorem Memory.read_nil (a : Nat) : Memory.read [] a = Memory.unlisted := rfl

theorem Memory.read_cons_entry (b a : Nat) (w : Byte) (m : Memory) :
    Memory.read ((b, w) :: m) a = if a = b then w else Memory.read m a := rfl

theorem Memory.wfFrom_cons {lo b : Nat} {w : Byte} {m : Memory} :
    Memory.wfFrom lo ((b, w) :: m) = true ↔
      lo ≤ b ∧ b < Config.memSize ∧ w ≠ Memory.unlisted ∧ Memory.wfFrom (b + 1) m = true := by
  simp [Memory.wfFrom, and_assoc]

/-- A canonical memory listing only addresses from `lo` on is canonical from any earlier address. -/
theorem Memory.wfFrom_mono {lo lo' : Nat} {m : Memory} (h : lo' ≤ lo) (hm : Memory.wfFrom lo m = true) :
    Memory.wfFrom lo' m = true := by
  cases m with
  | nil => rfl
  | cons e m =>
    obtain ⟨b, w⟩ := e
    rw [Memory.wfFrom_cons] at hm ⊢
    exact ⟨h.trans hm.1, hm.2⟩

/-- An address below every listed one reads as unlisted. -/
theorem Memory.read_below {lo a : Nat} {m : Memory} (hm : Memory.wfFrom lo m = true) (ha : a < lo) :
    Memory.read m a = Memory.unlisted := by
  induction m generalizing lo with
  | nil => rfl
  | cons e m ih =>
    obtain ⟨b, w⟩ := e
    rw [Memory.wfFrom_cons] at hm
    have hne : a ≠ b := by omega
    rw [Memory.read_cons_entry, if_neg hne]
    exact ih hm.2.2.2 (by omega)

/-- Leaving an unlisted value out does not change what is read, when the rest lists only later addresses. -/
theorem Memory.read_cons {a c : Nat} {v : Byte} {m : Memory} (hm : Memory.wfFrom (a + 1) m = true) :
    Memory.read (Memory.cons a v m) c = if c = a then v else Memory.read m c := by
  unfold Memory.cons
  split
  · rename_i hv
    split
    · rename_i hc
      rw [hc, hv]
      exact Memory.read_below hm (by omega)
    · rfl
  · exact Memory.read_cons_entry ..

/-- Reading after a write: the byte written at that address, the old byte at every other. -/
theorem Memory.read_write_from {lo a c : Nat} {v : Byte} {m : Memory} (hm : Memory.wfFrom lo m = true) :
    Memory.read (Memory.write m a v) c = if c = a then v else Memory.read m c := by
  induction m generalizing lo with
  | nil => exact Memory.read_cons rfl
  | cons e m ih =>
    obtain ⟨b, w⟩ := e
    have h' := Memory.wfFrom_cons.mp hm
    unfold Memory.write
    split
    · rename_i hab
      exact Memory.read_cons (Memory.wfFrom_cons.mpr ⟨by omega, h'.2⟩)
    · split
      · rename_i _ hab
        subst hab
        rw [Memory.read_cons h'.2.2.2, Memory.read_cons_entry]
        split <;> rfl
      · rename_i _ hab
        rw [Memory.read_cons_entry, ih h'.2.2.2, Memory.read_cons_entry]
        by_cases hcb : c = b
        · have hca : c ≠ a := by omega
          simp [hcb, Ne.symm hab]
        · simp [hcb]

theorem Memory.read_write_same {m : Memory} (hm : Memory.wf m = true) (a : Nat) (v : Byte) :
    Memory.read (Memory.write m a v) a = v := by
  rw [Memory.read_write_from hm, if_pos rfl]

theorem Memory.read_write_other {m : Memory} (hm : Memory.wf m = true) {a c : Nat} (h : c ≠ a) (v : Byte) :
    Memory.read (Memory.write m a v) c = Memory.read m c := by
  rw [Memory.read_write_from hm, if_neg h]

theorem Memory.cons_wfFrom {lo a : Nat} {v : Byte} {m : Memory} (hlo : lo ≤ a) (ha : a < Config.memSize)
    (hm : Memory.wfFrom (a + 1) m = true) : Memory.wfFrom lo (Memory.cons a v m) = true := by
  unfold Memory.cons
  split
  · exact Memory.wfFrom_mono (by omega) hm
  · rename_i hv
    exact Memory.wfFrom_cons.mpr ⟨hlo, ha, hv, hm⟩

theorem Memory.write_wfFrom {lo a : Nat} {v : Byte} {m : Memory} (hlo : lo ≤ a) (ha : a < Config.memSize)
    (hm : Memory.wfFrom lo m = true) : Memory.wfFrom lo (Memory.write m a v) = true := by
  induction m generalizing lo with
  | nil => exact Memory.cons_wfFrom hlo ha rfl
  | cons e m ih =>
    obtain ⟨b, w⟩ := e
    have h' := Memory.wfFrom_cons.mp hm
    unfold Memory.write
    split
    · exact Memory.cons_wfFrom hlo ha (Memory.wfFrom_cons.mpr ⟨by omega, h'.2⟩)
    · split
      · rename_i _ hab
        subst hab
        exact Memory.cons_wfFrom hlo ha h'.2.2.2
      · rename_i _ hab
        exact Memory.wfFrom_cons.mpr ⟨h'.1, h'.2.1, h'.2.2.1, ih (by omega) h'.2.2.2⟩

/-- A write inside the address space keeps the canonical form. -/
theorem Memory.write_keeps_wf {m : Memory} (hm : Memory.wf m = true) {a : Nat} (ha : a < Config.memSize) (v : Byte) :
    Memory.wf (Memory.write m a v) = true :=
  Memory.write_wfFrom (Nat.zero_le a) ha hm

/-- Storing a run of bytes keeps the canonical form. -/
theorem storeBytes_keeps_wf {m : Memory} (hm : Memory.wf m = true) (a : Nat) (vs : List Byte) :
    Memory.wf (storeBytes m a vs) = true := by
  induction vs generalizing m a with
  | nil => exact hm
  | cons v vs ih =>
    refine ih ?_ _
    split
    · rename_i ha
      exact Memory.write_keeps_wf hm ha v
    · exact hm

/-- What an address reads as after a run of bytes was stored from `a` up. -/
theorem read_storeBytes {m : Memory} (hm : Memory.wf m = true) (a c : Nat) (vs : List Byte) (hc : c < Config.memSize) :
    Memory.read (storeBytes m a vs) c = if a ≤ c then (vs[c - a]?).getD (Memory.read m c) else Memory.read m c := by
  induction vs generalizing m a with
  | nil => simp [storeBytes]
  | cons v vs ih =>
    have hm' : Memory.wf (if a < Config.memSize then Memory.write m a v else m) = true := by
      split
      · rename_i ha
        exact Memory.write_keeps_wf hm ha v
      · exact hm
    rw [storeBytes, ih hm']
    by_cases hlt : a + 1 ≤ c
    · have hca : c ≠ a := by omega
      have hr : Memory.read (if a < Config.memSize then Memory.write m a v else m) c = Memory.read m c := by
        split
        · exact Memory.read_write_other hm hca v
        · rfl
      have hsub : c - a = (c - (a + 1)) + 1 := by omega
      rw [if_pos hlt, if_pos (by omega : a ≤ c), hr, hsub, List.getElem?_cons_succ]
    · by_cases hca : c = a
      · subst hca
        rw [if_neg hlt, if_pos le_rfl, if_pos hc, Memory.read_write_same hm]
        simp
      · have hr : Memory.read (if a < Config.memSize then Memory.write m a v else m) c = Memory.read m c := by
          split
          · exact Memory.read_write_other hm hca v
          · rfl
        rw [if_neg hlt, if_neg (by omega : ¬ a ≤ c), hr]

/-- Reset memory is canonical. -/
theorem reset_mem_wf : Memory.wf State.reset.mem = true := rfl

end Sys2Proof.Machine
end

