-- ==== Sys2Proof/Laws/State.lean ====
section
/-! SUPPORT. One lemma per field per update of the state, and the laws of the register file's two operations. -/

namespace Sys2Proof.Machine

@[simp] theorem State.setX_x (s : State) (r : Fin 8) (v : Byte) : (s.setX r v).x = s.x.set r v := rfl
@[simp] theorem State.setX_fl (s : State) (r : Fin 8) (v : Byte) : (s.setX r v).fl = s.fl := rfl
@[simp] theorem State.setX_pc (s : State) (r : Fin 8) (v : Byte) : (s.setX r v).pc = s.pc := rfl
@[simp] theorem State.setX_sp (s : State) (r : Fin 8) (v : Byte) : (s.setX r v).sp = s.sp := rfl
@[simp] theorem State.setX_mem (s : State) (r : Fin 8) (v : Byte) : (s.setX r v).mem = s.mem := rfl
@[simp] theorem State.setX_run (s : State) (r : Fin 8) (v : Byte) : (s.setX r v).run = s.run := rfl
@[simp] theorem State.setX_fault (s : State) (r : Fin 8) (v : Byte) : (s.setX r v).fault = s.fault := rfl
@[simp] theorem State.setX_out (s : State) (r : Fin 8) (v : Byte) : (s.setX r v).out = s.out := rfl

@[simp] theorem State.jump_x (s : State) (v : Byte) : (s.jump v).x = s.x := rfl
@[simp] theorem State.jump_fl (s : State) (v : Byte) : (s.jump v).fl = s.fl := rfl
@[simp] theorem State.jump_pc (s : State) (v : Byte) : (s.jump v).pc = v.setWidth 9 := rfl
@[simp] theorem State.jump_sp (s : State) (v : Byte) : (s.jump v).sp = s.sp := rfl
@[simp] theorem State.jump_mem (s : State) (v : Byte) : (s.jump v).mem = s.mem := rfl
@[simp] theorem State.jump_run (s : State) (v : Byte) : (s.jump v).run = s.run := rfl
@[simp] theorem State.jump_fault (s : State) (v : Byte) : (s.jump v).fault = s.fault := rfl
@[simp] theorem State.jump_out (s : State) (v : Byte) : (s.jump v).out = s.out := rfl

@[simp] theorem State.advance_x (s : State) (n : Nat) : (s.advance n).x = s.x := rfl
@[simp] theorem State.advance_fl (s : State) (n : Nat) : (s.advance n).fl = s.fl := rfl
@[simp] theorem State.advance_pc (s : State) (n : Nat) : (s.advance n).pc = s.pc + BitVec.ofNat 9 (n + 1) := rfl
@[simp] theorem State.advance_sp (s : State) (n : Nat) : (s.advance n).sp = s.sp := rfl
@[simp] theorem State.advance_mem (s : State) (n : Nat) : (s.advance n).mem = s.mem := rfl
@[simp] theorem State.advance_run (s : State) (n : Nat) : (s.advance n).run = s.run := rfl
@[simp] theorem State.advance_fault (s : State) (n : Nat) : (s.advance n).fault = s.fault := rfl
@[simp] theorem State.advance_out (s : State) (n : Nat) : (s.advance n).out = s.out := rfl

@[simp] theorem State.emit_x (s : State) (v : Byte) : (s.emit v).x = s.x := rfl
@[simp] theorem State.emit_fl (s : State) (v : Byte) : (s.emit v).fl = s.fl := rfl
@[simp] theorem State.emit_pc (s : State) (v : Byte) : (s.emit v).pc = s.pc := rfl
@[simp] theorem State.emit_sp (s : State) (v : Byte) : (s.emit v).sp = s.sp := rfl
@[simp] theorem State.emit_mem (s : State) (v : Byte) : (s.emit v).mem = s.mem := rfl
@[simp] theorem State.emit_run (s : State) (v : Byte) : (s.emit v).run = s.run := rfl
@[simp] theorem State.emit_fault (s : State) (v : Byte) : (s.emit v).fault = s.fault := rfl
@[simp] theorem State.emit_out (s : State) (v : Byte) : (s.emit v).out = s.out ++ [v] := rfl

@[simp] theorem takeFault_x (f : FaultRecord) (s : State) : (takeFault f s).x = s.x := rfl
@[simp] theorem takeFault_fl (f : FaultRecord) (s : State) : (takeFault f s).fl = s.fl := rfl
@[simp] theorem takeFault_pc (f : FaultRecord) (s : State) : (takeFault f s).pc = s.pc := rfl
@[simp] theorem takeFault_sp (f : FaultRecord) (s : State) : (takeFault f s).sp = s.sp := rfl
@[simp] theorem takeFault_mem (f : FaultRecord) (s : State) : (takeFault f s).mem = s.mem := rfl
@[simp] theorem takeFault_run (f : FaultRecord) (s : State) : (takeFault f s).run = .faulted := rfl
@[simp] theorem takeFault_fault (f : FaultRecord) (s : State) : (takeFault f s).fault = some f := rfl
@[simp] theorem takeFault_out (f : FaultRecord) (s : State) : (takeFault f s).out = s.out := rfl

@[simp] theorem State.getX_mk (x : Vector Byte 8) (fl : Byte) (pc : PcWord) (sp : Byte) (mem : Memory)
    (run : RunState) (fault : Option FaultRecord) (out : List Byte) (r : Fin 8) :
    State.getX ⟨x, fl, pc, sp, mem, run, fault, out⟩ r = x.get r := rfl

@[simp] theorem State.getX_jump (s : State) (v : Byte) (r : Fin 8) : (s.jump v).getX r = s.getX r := rfl

@[simp] theorem State.getX_advance (s : State) (n : Nat) (r : Fin 8) : (s.advance n).getX r = s.getX r := rfl

@[simp] theorem State.getX_emit (s : State) (v : Byte) (r : Fin 8) : (s.emit v).getX r = s.getX r := rfl

@[simp] theorem getX_takeFault (f : FaultRecord) (s : State) (r : Fin 8) : (takeFault f s).getX r = s.getX r := rfl

/-- A register reads what was last written to it. -/
@[simp] theorem State.getX_setX_same (s : State) (r : Fin 8) (v : Byte) : (s.setX r v).getX r = v := by
  simp [State.getX, State.setX, Vector.get_eq_getElem]

/-- Writing a register leaves every other register alone. -/
theorem State.getX_setX_other (s : State) (r k : Fin 8) (v : Byte) (h : k ≠ r) :
    (s.setX r v).getX k = s.getX k := by
  have hv : r.val ≠ k.val := fun e => h (Fin.ext e.symm)
  simp [State.getX, State.setX, Vector.get_eq_getElem, hv]

end Sys2Proof.Machine
end

