-- ==== Sys2Proof/Laws/Ops.lean ====
section
/-! SUPPORT. For each shared operation one lemma that says everything it can answer; later proofs cite these instead of
unfolding the operation. -/

namespace Sys2Proof.Machine

/-- All a step's check can do: go on with its value, or end the step with its fault taken. -/
theorem orFault_next {α : Type} {r : Except FaultRecord α} {s t : State} {go : α → Answer} :
    orFault r s go = .next t ↔
      (∃ a, r = .ok a ∧ go a = .next t) ∨ (∃ f, r = .error f ∧ t = takeFault f s) := by
  cases r with
  | ok a => simp [orFault]
  | error f => simp [orFault, eq_comm]

@[simp] theorem orFault_ok {α : Type} (a : α) (s : State) (go : α → Answer) :
    orFault (.ok a) s go = go a := rfl

@[simp] theorem orFault_error {α : Type} (f : FaultRecord) (s : State) (go : α → Answer) :
    orFault (.error f) s go = .next (takeFault f s) := rfl

/-- The register a byte of 0 to 7 names. -/
theorem regIndex_ok {b : Byte} (h : b.toNat < 8) : regIndex b = .ok ⟨b.toNat, h⟩ := dif_pos h

/-- A byte of 8 to 255 names no register. -/
theorem regIndex_error {b : Byte} (h : ¬ b.toNat < 8) : regIndex b = .error (.invalidRegister b) := dif_neg h

/-- All the register check can answer. -/
theorem regIndex_cases (b : Byte) :
    (∃ h : b.toNat < 8, regIndex b = .ok ⟨b.toNat, h⟩) ∨
      (¬ b.toNat < 8 ∧ regIndex b = .error (.invalidRegister b)) := by
  by_cases h : b.toNat < 8
  · exact .inl ⟨h, regIndex_ok h⟩
  · exact .inr ⟨h, regIndex_error h⟩

/-- All a push's slot can be. -/
theorem pushSlot_cases (sp : Byte) :
    (sp = 0#8 ∧ pushSlot sp = .error (.outOfBounds (-1))) ∨
      (sp ≠ 0#8 ∧ pushSlot sp = .ok (sp - 1#8) ∧ (sp - 1#8).toNat = sp.toNat - 1 ∧ 0 < sp.toNat) := by
  by_cases h : sp = 0#8
  · exact .inl ⟨h, if_pos h⟩
  · exact .inr ⟨h, if_neg h, by bv_omega, by bv_omega⟩

/-- All a pop's slot can be. -/
theorem popSlot_cases (sp : Byte) :
    (sp = 255#8 ∧ popSlot sp = .error (.outOfBounds 256)) ∨
      (sp ≠ 255#8 ∧ popSlot sp = .ok (sp + 1#8) ∧ (sp + 1#8).toNat = sp.toNat + 1) := by
  by_cases h : sp = 255#8
  · exact .inl ⟨h, if_pos h⟩
  · exact .inr ⟨h, if_neg h, by bv_omega⟩

/-- All CALL's return address can be. -/
theorem returnAddress_cases (pc : PcWord) :
    (255 < pc.toNat + 2 ∧ returnAddress pc = .error (.outOfBounds (pc.toNat + 2))) ∨
      (pc.toNat + 2 ≤ 255 ∧ returnAddress pc = .ok (BitVec.ofNat 8 (pc.toNat + 2))) := by
  by_cases h : 255 < pc.toNat + 2
  · exact .inl ⟨h, if_pos h⟩
  · exact .inr ⟨by omega, if_neg h⟩

/-- An address inside the address space is a cell. -/
theorem cellOf_inside {a : Nat} (h : a < Config.memSize) : cellOf a = .ok a := if_pos h

/-- An address past the address space is no cell. -/
theorem cellOf_past {a : Nat} (h : Config.memSize ≤ a) : cellOf a = .error (.outOfBounds a) :=
  if_neg (Nat.not_lt.mpr h)

/-- All the address check can answer. -/
theorem cellOf_cases (addr : Int) :
    (∃ a : Nat, addr = a ∧ a < Config.memSize ∧ cellOf addr = .ok a) ∨
      (¬ (0 ≤ addr ∧ addr ≤ 255) ∧ cellOf addr = .error (.outOfBounds addr)) := by
  cases addr with
  | ofNat a =>
    by_cases h : a < Config.memSize
    · exact .inl ⟨a, rfl, h, if_pos h⟩
    · exact .inr ⟨by simp only [Config.memSize, Int.ofNat_eq_natCast] at h ⊢; omega, if_neg h⟩
  | negSucc n => exact .inr ⟨by omega, rfl⟩

/-- A read inside the address space. -/
theorem memRead_inside (m : Memory) {a : Nat} (h : a < Config.memSize) :
    memRead m a = .ok (Memory.read m a) := by
  rw [memRead, cellOf_inside h]

/-- A read past the address space. -/
theorem memRead_past (m : Memory) {a : Nat} (h : Config.memSize ≤ a) :
    memRead m a = .error (.outOfBounds a) := by
  rw [memRead, cellOf_past h]

/-- A write inside the address space. -/
theorem memWrite_inside (m : Memory) {a : Nat} (h : a < Config.memSize) (v : Byte) :
    memWrite m a v = .ok (Memory.write m a v) := by
  rw [memWrite, cellOf_inside h]

/-- A byte is always an address. -/
@[simp] theorem memRead_byte (m : Memory) (a : Byte) : memRead m a.toNat = .ok (Memory.read m a.toNat) :=
  memRead_inside m a.isLt

@[simp] theorem memWrite_byte (m : Memory) (a v : Byte) : memWrite m a.toNat v = .ok (Memory.write m a.toNat v) :=
  memWrite_inside m a.isLt v

/-- All a step can do: it is taken only while RUNNING; it takes the fetch's fault, or runs the instruction fetched. -/
theorem step_next {s t : State} :
    step s = .next t ↔
      s.run = .running ∧
        ((∃ i, fetch s = .ok i ∧ exec i s = .next t) ∨ (∃ f, fetch s = .error f ∧ t = takeFault f s)) := by
  cases h : s.run <;> simp [step, h, orFault_next]

/-- A check that goes on only to next states answers a next state. -/
theorem orFault_answers {α : Type} {r : Except FaultRecord α} {s : State} {go : α → Answer}
    (h : ∀ a, ∃ t, go a = .next t) : ∃ t, orFault r s go = .next t := by
  cases r with
  | ok a => exact h a
  | error f => exact ⟨takeFault f s, rfl⟩

/-- No meaning stops: every instruction answers a next state, its own effect or the fault it takes. -/
theorem exec_answers (i : Instr) (s : State) : ∃ t, exec i s = .next t := by
  cases i <;> first
    | exact ⟨_, rfl⟩
    | exact orFault_answers fun _ => ⟨_, rfl⟩
    | exact orFault_answers fun _ => orFault_answers fun _ => ⟨_, rfl⟩
    | exact orFault_answers fun _ => orFault_answers fun _ => orFault_answers fun _ => ⟨_, rfl⟩
    | exact orFault_answers fun _ => orFault_answers fun _ => orFault_answers fun _ => orFault_answers fun _ => ⟨_, rfl⟩

/-- Bit 0 after writing the flag. -/
@[simp] theorem flagE_setFlagE (fl : Byte) (e : Bool) : flagE (setFlagE fl e) = e := by
  cases e <;> simp [flagE, setFlagE, BitVec.ofBool]

/-- Writing the flag leaves bits 7 to 1 alone. -/
theorem setFlagE_other (fl : Byte) (e : Bool) {k : Nat} (h : 1 ≤ k) :
    (setFlagE fl e).getLsbD k = fl.getLsbD k := by
  have small : ∀ fl : Byte, ∀ e : Bool, ∀ k : Fin 8, 1 ≤ k.val → (setFlagE fl e).getLsbD k = fl.getLsbD k := by decide
  by_cases hk : k < 8
  · exact small fl e ⟨k, hk⟩ h
  · rw [BitVec.getLsbD_of_ge _ _ (by omega), BitVec.getLsbD_of_ge _ _ (by omega)]

/-- A legal flags byte stays legal. -/
theorem setFlagE_legal {fl : Byte} (h : fl = 0#8 ∨ fl = 1#8) (e : Bool) :
    setFlagE fl e = if e = true then 1#8 else 0#8 := by
  rcases h with rfl | rfl <;> cases e <;> decide

end Sys2Proof.Machine
end

