-- ==== Sys2Proof/Laws/Exec.lean ====
section
/-! SUPPORT. Said once: all an instruction, and all a step, can do. Whole-machine claims follow from these by cases. -/

namespace Sys2Proof.Machine

/-- A conditional branch goes to its register's address or past its operand, by the flag. -/
theorem branchIf_cases (taken : Bool) (i : Fin 8) (s : State) :
    (taken = true ∧ branchIf taken i s = s.jump (s.getX i)) ∨
      (taken = false ∧ branchIf taken i s = s.advance 1) := by
  cases taken
  · exact .inr ⟨rfl, rfl⟩
  · exact .inl ⟨rfl, rfl⟩

/-- A conditional branch changes nothing but `pc`. -/
theorem branchIf_frame (taken : Bool) (i : Fin 8) (s : State) :
    branchIf taken i s = { s with pc := (branchIf taken i s).pc } := by
  cases taken <;> rfl

/-- The effect of an instruction that raises no fault, as the state it leads to. -/
def Effect (s t : State) : Instr → Prop
  | .hlt => t = { s.advance 0 with run := .halted }
  | .ldi r v => ∃ i, regIndex r = .ok i ∧ t = (s.setX i v).advance 2
  | .prn r => ∃ i, regIndex r = .ok i ∧ t = (s.emit (s.getX i)).advance 1
  | .push r => ∃ i slot, regIndex r = .ok i ∧ pushSlot s.sp = .ok slot ∧
      t = { s with mem := Memory.write s.mem slot.toNat (s.getX i), sp := slot }.advance 1
  | .pop r => ∃ i slot, regIndex r = .ok i ∧ popSlot s.sp = .ok slot ∧
      t = { s.setX i (Memory.read s.mem s.sp.toNat) with sp := slot }.advance 1
  | .call r => ∃ i slot ret, regIndex r = .ok i ∧ pushSlot s.sp = .ok slot ∧ returnAddress s.pc = .ok ret ∧
      t = { s with mem := Memory.write s.mem slot.toNat ret, sp := slot }.jump (s.getX i)
  | .ret => ∃ slot, popSlot s.sp = .ok slot ∧ t = { s with sp := slot }.jump (Memory.read s.mem s.sp.toNat)
  | .jmp r => ∃ i, regIndex r = .ok i ∧ t = s.jump (s.getX i)
  | .jeq r => ∃ i, regIndex r = .ok i ∧ t = branchIf (flagE s.fl) i s
  | .jne r => ∃ i, regIndex r = .ok i ∧ t = branchIf (!flagE s.fl) i s
  | .add a b => ∃ i j, regIndex a = .ok i ∧ regIndex b = .ok j ∧
      t = (s.setX i (aluAdd (s.getX i) (s.getX j))).advance 2
  | .mul a b => ∃ i j, regIndex a = .ok i ∧ regIndex b = .ok j ∧
      t = (s.setX i (aluMul (s.getX i) (s.getX j))).advance 2
  | .cmp a b => ∃ i j, regIndex a = .ok i ∧ regIndex b = .ok j ∧
      t = { s with fl := setFlagE s.fl (equalFlag (s.getX i) (s.getX j)) }.advance 2

/-- All an instruction can do: its effect, or a fault taken in the state it began in. -/
theorem exec_cases {i : Instr} {s t : State} (h : exec i s = .next t) :
    Effect s t i ∨ ∃ f, t = takeFault f s := by
  cases i <;>
    simp only [exec, execHlt, execLdi, execPrn, execPush, execPop, execCall, execRet, execJmp, execJeq, execJne,
      execAdd, execMul, execCmp, orFault_next, memRead_byte, memWrite_byte, Host.Outcome.next.injEq,
      Except.ok.injEq, reduceCtorEq, exists_eq_left', false_and, exists_false, or_false] at h <;>
    simp only [Effect] <;>
    aesop

/-- An effect leaves the fault record alone, and `run` too unless it is HLT's. -/
theorem Effect_run {i : Instr} {s t : State} (h : Effect s t i) :
    t.fault = s.fault ∧ ((i = .hlt ∧ t.run = .halted) ∨ (i ≠ .hlt ∧ t.run = s.run)) := by
  cases i with
  | hlt => cases h; exact ⟨rfl, .inl ⟨rfl, rfl⟩⟩
  | ldi r v => obtain ⟨i, -, rfl⟩ := h; exact ⟨rfl, .inr ⟨nofun, rfl⟩⟩
  | prn r => obtain ⟨i, -, rfl⟩ := h; exact ⟨rfl, .inr ⟨nofun, rfl⟩⟩
  | push r => obtain ⟨i, slot, -, -, rfl⟩ := h; exact ⟨rfl, .inr ⟨nofun, rfl⟩⟩
  | pop r => obtain ⟨i, slot, -, -, rfl⟩ := h; exact ⟨rfl, .inr ⟨nofun, rfl⟩⟩
  | call r => obtain ⟨i, slot, ret, -, -, -, rfl⟩ := h; exact ⟨rfl, .inr ⟨nofun, rfl⟩⟩
  | ret => obtain ⟨slot, -, rfl⟩ := h; exact ⟨rfl, .inr ⟨nofun, rfl⟩⟩
  | jmp r => obtain ⟨i, -, rfl⟩ := h; exact ⟨rfl, .inr ⟨nofun, rfl⟩⟩
  | jeq r =>
    obtain ⟨i, -, rfl⟩ := h
    rw [branchIf_frame]
    exact ⟨rfl, .inr ⟨nofun, rfl⟩⟩
  | jne r =>
    obtain ⟨i, -, rfl⟩ := h
    rw [branchIf_frame]
    exact ⟨rfl, .inr ⟨nofun, rfl⟩⟩
  | add a b => obtain ⟨i, j, -, -, rfl⟩ := h; exact ⟨rfl, .inr ⟨nofun, rfl⟩⟩
  | mul a b => obtain ⟨i, j, -, -, rfl⟩ := h; exact ⟨rfl, .inr ⟨nofun, rfl⟩⟩
  | cmp a b => obtain ⟨i, j, -, -, rfl⟩ := h; exact ⟨rfl, .inr ⟨nofun, rfl⟩⟩

/-- What the fetch answers: the instruction whose opcode byte is at `pc` and whose operand bytes follow it inside
memory, or the first fault met. -/
theorem fetch_ok {s : State} {i : Instr} (h : fetch s = .ok i) :
    s.pc.toNat + (operandBytes i).length < Config.memSize ∧ Memory.read s.mem s.pc.toNat = opcodeByte i ∧
      ∀ k, (hk : k < (operandBytes i).length) → Memory.read s.mem (s.pc.toNat + 1 + k) = (operandBytes i)[k] := by
  have inside : ∀ {a : Nat} {v : Byte}, memRead s.mem a = .ok v → a < Config.memSize ∧ v = Memory.read s.mem a := by
    intro a v hv
    by_cases ha : a < Config.memSize
    · rw [memRead_inside _ ha] at hv
      cases hv
      exact ⟨ha, rfl⟩
    · rw [memRead_past _ (Nat.not_lt.mp ha)] at hv
      cases hv
  unfold fetch at h
  split at h
  · cases h
  · rename_i ir hir
    obtain ⟨hpc, rfl⟩ := inside hir
    obtain ⟨form, hl, hd⟩ | ⟨-, hd⟩ := dispatch_cases (Memory.read s.mem s.pc.toNat) <;> rw [hd] at h
    · rcases form with j | make | make <;> simp only [fetchOperands] at h
      · cases h
        rcases lookupOpcode_some hl with e | e | e | e | e | e | e | e | e | e | e | e | e <;>
          obtain ⟨e, he⟩ := e <;> cases he <;>
          exact ⟨hpc, e, fun k hk => absurd hk (Nat.not_lt_zero k)⟩
      · split at h
        · cases h
        · rename_i b hb
          obtain ⟨h1, rfl⟩ := inside (a := s.pc.toNat + 1) hb
          cases h
          rcases lookupOpcode_some hl with e | e | e | e | e | e | e | e | e | e | e | e | e <;>
            obtain ⟨e, he⟩ := e <;> cases he <;>
            exact ⟨h1, e, fun k hk => by obtain rfl := Nat.lt_one_iff.mp hk; rfl⟩
      · split at h
        · cases h
        · rename_i b hb
          obtain ⟨h1, rfl⟩ := inside (a := s.pc.toNat + 1) hb
          split at h
          · cases h
          · rename_i c hc
            obtain ⟨h2, rfl⟩ := inside (a := s.pc.toNat + 2) hc
            cases h
            rcases lookupOpcode_some hl with e | e | e | e | e | e | e | e | e | e | e | e | e <;>
              obtain ⟨e, he⟩ := e <;> cases he <;>
              exact ⟨h2, e, fun k hk => by
                obtain rfl | rfl : k = 0 ∨ k = 1 := by simp only [operandBytes, List.length_cons, List.length_nil] at hk; omega
                · rfl
                · rfl⟩
    · cases h

/-- An instruction that lies at `pc` inside memory is what the fetch answers. -/
theorem fetch_at {s : State} {i : Instr} (hpc : s.pc.toNat + (operandBytes i).length < Config.memSize)
    (h0 : Memory.read s.mem s.pc.toNat = opcodeByte i)
    (hk : ∀ k, (hk : k < (operandBytes i).length) → Memory.read s.mem (s.pc.toNat + 1 + k) = (operandBytes i)[k]) :
    fetch s = .ok i := by
  have hir : memRead s.mem s.pc.toNat = .ok (opcodeByte i) := by rw [memRead_inside _ (by omega), h0]
  have one : 0 < (operandBytes i).length → memRead s.mem (s.pc.toNat + 1) = .ok (operandBytes i)[0]! := by
    intro h
    have := memRead_inside s.mem (a := s.pc.toNat + 1) (by omega)
    rw [hk 0 h] at this
    simpa [h] using this
  have two : 1 < (operandBytes i).length → memRead s.mem (s.pc.toNat + 2) = .ok (operandBytes i)[1]! := by
    intro h
    have := memRead_inside s.mem (a := s.pc.toNat + 2) (by omega)
    rw [hk 1 h] at this
    simpa [h] using this
  unfold fetch
  rw [hir]
  obtain ⟨hl, hb⟩ | ⟨make, b, hl, hb, rfl⟩ | ⟨make, b, c, hl, hb, rfl⟩ := lookupOpcode_opcodeByte i
  · simp [dispatch, hl, fetchOperands]
  · rw [hb] at one
    simp [dispatch, hl, fetchOperands, one]
  · rw [hb] at one two
    simp [dispatch, hl, fetchOperands, one, two]

/-- All a step can do: the effect of the instruction fetched, or a fault taken in the state it began in. -/
theorem step_cases {s t : State} (h : step s = .next t) :
    s.run = .running ∧ ((∃ i, fetch s = .ok i ∧ Effect s t i) ∨ ∃ f, t = takeFault f s) := by
  obtain ⟨hr, ⟨i, hf, he⟩ | ⟨f, -, ht⟩⟩ := step_next.mp h
  · exact ⟨hr, (exec_cases he).imp_left fun e => ⟨i, hf, e⟩⟩
  · exact ⟨hr, .inr ⟨f, ht⟩⟩

end Sys2Proof.Machine
end

