-- ==== Sys2Proof/Laws/PerInstr.lean ====
section
/-! SUPPORT. Laws stated for every instruction as a term, one lemma per constructor. -/

namespace Sys2Proof.Laws.EncodingLaw

/-- The encoding of an instruction agrees with its opcode byte: the byte is in the dispatch table, and the instruction
is as long as the byte's operand count field says (30_encoding R50, R56). -/
def Statement (i : Instr) : Prop :=
  (lookupOpcode (opcodeByte i)).isSome = true ∧ i.length = 1 + (opcodeFields (opcodeByte i)).n.toNat

theorem hlt : Statement .hlt := ⟨rfl, by simp [opcodeFields, opcodeByte, Instr.length, encode, operandBytes]⟩
theorem ldi (r v : Byte) : Statement (.ldi r v) := ⟨rfl, by simp [opcodeFields, opcodeByte, Instr.length, encode, operandBytes]⟩
theorem prn (r : Byte) : Statement (.prn r) := ⟨rfl, by simp [opcodeFields, opcodeByte, Instr.length, encode, operandBytes]⟩
theorem push (r : Byte) : Statement (.push r) := ⟨rfl, by simp [opcodeFields, opcodeByte, Instr.length, encode, operandBytes]⟩
theorem pop (r : Byte) : Statement (.pop r) := ⟨rfl, by simp [opcodeFields, opcodeByte, Instr.length, encode, operandBytes]⟩
theorem call (r : Byte) : Statement (.call r) := ⟨rfl, by simp [opcodeFields, opcodeByte, Instr.length, encode, operandBytes]⟩
theorem ret : Statement .ret := ⟨rfl, by simp [opcodeFields, opcodeByte, Instr.length, encode, operandBytes]⟩
theorem jmp (r : Byte) : Statement (.jmp r) := ⟨rfl, by simp [opcodeFields, opcodeByte, Instr.length, encode, operandBytes]⟩
theorem jeq (r : Byte) : Statement (.jeq r) := ⟨rfl, by simp [opcodeFields, opcodeByte, Instr.length, encode, operandBytes]⟩
theorem jne (r : Byte) : Statement (.jne r) := ⟨rfl, by simp [opcodeFields, opcodeByte, Instr.length, encode, operandBytes]⟩
theorem add (a b : Byte) : Statement (.add a b) := ⟨rfl, by simp [opcodeFields, opcodeByte, Instr.length, encode, operandBytes]⟩
theorem mul (a b : Byte) : Statement (.mul a b) := ⟨rfl, by simp [opcodeFields, opcodeByte, Instr.length, encode, operandBytes]⟩
theorem cmp (a b : Byte) : Statement (.cmp a b) := ⟨rfl, by simp [opcodeFields, opcodeByte, Instr.length, encode, operandBytes]⟩

end Sys2Proof.Laws.EncodingLaw
end

