-- ==== Sys2Proof/Tests/Slice0.lean ====
section
/-! SUPPORT. Tests: the WellFormed smoke, words written out from 30_encoding R55, single-step vectors of
95_test_vectors, and for every statement with hypotheses a state that meets them. Expected values come from the spec. -/

namespace Sys2Proof.Tests

open Sys2Proof Sys2Proof.Machine Sys2Proof.Claims

/-- The reset state with `bytes` at `pc` and the given `sp`. -/
def at_ (pc : Nat) (bytes : List Byte) (sp : Byte := 0xF4#8) : State :=
  { State.reset with mem := storeBytes [] pc bytes, pc := BitVec.ofNat 9 pc, sp := sp }

/-- One field of the state a step or a meaning answers. -/
def see {α : Type} (f : State → α) (a : Answer) : Option α :=
  match a with
  | .next t => some (f t)
  | .fault _ => none
  | .refused _ => none

/-- A field after one step. -/
def after {α : Type} (f : State → α) (s : State) : Option α := see f (step s)

/-- The state with register `r` set. -/
def withX (s : State) (r : Fin 8) (v : Byte) : State := s.setX r v

/-! ## WellFormed refuses each register operand above 7 -/

theorem test_wf_ldi : Instr.wellFormed (.ldi 8#8 0#8) = false := by decide
theorem test_wf_ldi_immediate : Instr.wellFormed (.ldi 7#8 255#8) = true := by decide
theorem test_wf_prn : Instr.wellFormed (.prn 200#8) = false := by decide
theorem test_wf_push : Instr.wellFormed (.push 8#8) = false := by decide
theorem test_wf_pop : Instr.wellFormed (.pop 8#8) = false := by decide
theorem test_wf_call : Instr.wellFormed (.call 8#8) = false := by decide
theorem test_wf_jmp : Instr.wellFormed (.jmp 9#8) = false := by decide
theorem test_wf_jeq : Instr.wellFormed (.jeq 8#8) = false := by decide
theorem test_wf_jne : Instr.wellFormed (.jne 255#8) = false := by decide
theorem test_wf_add : Instr.wellFormed (.add 9#8 1#8) = false ∧ Instr.wellFormed (.add 1#8 9#8) = false := by decide
theorem test_wf_mul : Instr.wellFormed (.mul 8#8 1#8) = false ∧ Instr.wellFormed (.mul 1#8 8#8) = false := by decide
theorem test_wf_cmp : Instr.wellFormed (.cmp 8#8 1#8) = false ∧ Instr.wellFormed (.cmp 1#8 8#8) = false := by decide

/-! ## Words written out bit by bit from 30_encoding R55 and R53 -/

theorem test_decode_hlt : decode [0b00000001#8] = .ok (.hlt, []) := rfl
theorem test_decode_ldi : decode [0b10000010#8, 0b00000011#8, 0b11001000#8] = .ok (.ldi 3#8 200#8, []) := rfl
theorem test_decode_prn : decode [0b01000111#8, 0b00000110#8] = .ok (.prn 6#8, []) := rfl
theorem test_decode_push : decode [0b01000101#8, 0b00000101#8] = .ok (.push 5#8, []) := rfl
theorem test_decode_pop : decode [0b01000110#8, 0b00000100#8] = .ok (.pop 4#8, []) := rfl
theorem test_decode_call : decode [0b01010000#8, 0b00000010#8] = .ok (.call 2#8, []) := rfl
theorem test_decode_ret : decode [0b00010001#8] = .ok (.ret, []) := rfl
theorem test_decode_jmp : decode [0b01010100#8, 0b00000001#8] = .ok (.jmp 1#8, []) := rfl
theorem test_decode_jeq : decode [0b01010101#8, 0b00000111#8] = .ok (.jeq 7#8, []) := rfl
theorem test_decode_jne : decode [0b01010110#8, 0b00000011#8] = .ok (.jne 3#8, []) := rfl
theorem test_decode_add : decode [0b10100000#8, 0b00000001#8, 0b00000010#8] = .ok (.add 1#8 2#8, []) := rfl
theorem test_decode_mul : decode [0b10100010#8, 0b00000011#8, 0b00000100#8] = .ok (.mul 3#8 4#8, []) := rfl
theorem test_decode_cmp : decode [0b10100111#8, 0b00000101#8, 0b00000110#8, 0b00000001#8] = .ok (.cmp 5#8 6#8, [1#8]) := rfl
theorem test_decode_missing : decode [0b10100111#8, 0b00000101#8] = .error (.missingOperand 2) := rfl

/-- 30_encoding R58: 243 illegal bytes, and exactly those miss the lookup. -/
theorem test_illegal_miss : ∀ b : Byte, (lookupOpcode b).isNone = illegalOpcode b := by decide

/-- The decoder field vectors of 95_test_vectors (bytes 86 and 255). -/
theorem test_fields_jne : opcodeFields 86#8 = { n := 1#2, alu := false, setpc := true, id := 6#4 } := by decide
theorem test_fields_255 : opcodeFields 255#8 = { n := 3#2, alu := true, setpc := true, id := 15#4 } := by decide

theorem test_table_word_ldi : decodeTableWord 8 0x82 = some (.ldi 0#8 0#8) := by decide
theorem test_table_word_mul : decodeTableWord 24 0x0504A2 = some (.mul 4#8 5#8) := by decide
theorem test_fetch_word_runs :
    step (State.reset.withFetchWord 24 0x080082) = exec (.ldi 0#8 8#8) (State.reset.withFetchWord 24 0x080082) := rfl

/-! ## Single steps (95_test_vectors part 2) -/

/-- V-HLT-2. -/
theorem test_hlt_at_255 : after (fun t => (t.pc.toNat, t.run)) (at_ 255 [1#8]) = some (256, .halted) := by decide
/-- V-LDI-2. -/
theorem test_ldi_r7 : after (fun t => (t.x[7], t.sp, t.pc.toNat)) (at_ 0 [130#8, 7#8, 0#8]) = some (0#8, 244#8, 3) := by decide
/-- V-LDI-7. -/
theorem test_ldi_at_254 :
    after (fun t => (t.run, t.fault, t.pc.toNat)) (at_ 254 [130#8, 1#8]) = some (.faulted, some (.outOfBounds 256), 254) := by decide
/-- V-PRN-2. -/
theorem test_prn : after (fun t => (t.out, t.pc.toNat)) (withX (at_ 0 [71#8, 1#8]) 1 255#8) = some ([255#8], 2) := by decide
/-- V-PRN-5. -/
theorem test_prn_bad : after (fun t => (t.fault, t.out)) (at_ 0 [71#8, 200#8]) = some (some (.invalidRegister 200#8), []) := by decide
/-- V-PUSH-2. -/
theorem test_push_to_zero :
    after (fun t => (t.mem.head?, t.sp, t.pc.toNat)) (withX (at_ 6 [69#8, 0#8] 1#8) 0 171#8) = some (some (0, 171#8), 0#8, 8) := by decide
/-- V-PUSH-6. -/
theorem test_push_priority : after (·.fault) (at_ 0 [69#8, 9#8] 0#8) = some (some (.invalidRegister 9#8)) := by decide
/-- V-POP-5. -/
theorem test_pop_r7 :
    after (fun t => (t.x[7], t.sp)) { at_ 0 [70#8, 7#8] 243#8 with mem := [(0, 70#8), (1, 7#8), (243, 0x42#8)] } = some (0x42#8, 244#8) := by decide
/-- V-POP-4. -/
theorem test_pop_overflow : after (fun t => (t.fault, t.sp)) (at_ 0 [70#8, 0#8] 255#8) = some (some (.outOfBounds 256), 255#8) := by decide
/-- V-CALL-2. -/
theorem test_call_at_253 :
    after (fun t => (Memory.read t.mem 0xF3, t.sp, t.pc.toNat)) (withX (at_ 253 [80#8, 1#8]) 1 12#8) = some (255#8, 243#8, 12) := by decide
/-- V-CALL-6. -/
theorem test_call_stack_first : after (·.fault) (at_ 254 [80#8, 1#8] 0#8) = some (some (.outOfBounds (-1))) := by decide
/-- V-RET-3. -/
theorem test_ret_at_255 :
    after (fun t => (t.pc.toNat, t.sp)) { at_ 255 [17#8] 243#8 with mem := [(243, 8#8), (255, 17#8)] } = some (8, 244#8) := by decide
/-- V-RET-2. -/
theorem test_ret_overflow : after (fun t => (t.fault, t.pc.toNat)) (at_ 15 [17#8] 255#8) = some (some (.outOfBounds 256), 15) := by decide
/-- V-JMP-1. -/
theorem test_jmp : after (·.pc.toNat) (withX (at_ 14 [84#8, 2#8]) 2 3#8) = some 3 := by decide
/-- V-JEQ-1. -/
theorem test_jeq_taken : after (fun t => (t.pc.toNat, t.fl)) { withX (at_ 9 [85#8, 2#8]) 2 20#8 with fl := 1#8 } = some (20, 1#8) := by decide
/-- V-JEQ-3. -/
theorem test_jeq_not_taken : after (·.pc.toNat) (withX (at_ 254 [85#8, 2#8]) 2 20#8) = some 256 := by decide
/-- V-JNE-1. -/
theorem test_jne_taken : after (·.pc.toNat) (withX (at_ 12 [86#8, 3#8]) 3 6#8) = some 6 := by decide
/-- V-JNE-2. -/
theorem test_jne_not_taken : after (·.pc.toNat) { withX (at_ 12 [86#8, 3#8]) 3 6#8 with fl := 1#8 } = some 14 := by decide
/-- V-ADD-1. -/
theorem test_add_wraps :
    after (fun t => (t.x[0], t.x[1], t.fl)) (withX (withX (at_ 0 [160#8, 0#8, 1#8]) 0 200#8) 1 100#8) = some (44#8, 100#8, 0#8) := by decide
/-- V-MUL-6. -/
theorem test_mul_same : after (fun t => (t.x[3], t.pc.toNat)) (withX (at_ 0 [162#8, 3#8, 3#8]) 3 200#8) = some (64#8, 3) := by decide
/-- V-MUL-8. -/
theorem test_mul_wraps :
    after (fun t => (t.x[0], t.x[1])) (withX (withX (at_ 0 [162#8, 0#8, 1#8]) 0 100#8) 1 3#8) = some (44#8, 3#8) := by decide
/-- V-CMP-2. -/
theorem test_cmp_clears :
    after (fun t => (t.fl, t.pc.toNat)) { withX (withX (at_ 0 [167#8, 0#8, 1#8]) 0 5#8) 1 6#8 with fl := 1#8 } = some (0#8, 3) := by decide
/-- V-CMP-4. -/
theorem test_cmp_sets : after (·.fl) (at_ 0 [167#8, 0#8, 1#8]) = some 1#8 := by decide
/-- V-ADD-11. -/
theorem test_add_fetch_first : after (·.fault) (at_ 254 [160#8, 9#8]) = some (some (.outOfBounds 256)) := by decide
/-- V-ILL-5. -/
theorem test_illegal_at_255 :
    after (fun t => (t.fault, t.pc.toNat)) (at_ 255 [0x41#8]) = some (some (.unsupportedOpcode 65#8), 255) := by decide
/-- V-FETCH-1. -/
theorem test_fetch_at_256 : after (·.fault) (at_ 256 []) = some (some (.outOfBounds 256)) := by decide
/-- 41_halt_load_print R95. -/
theorem test_render : renderOut [8#8, 72#8, 0#8, 255#8] = "8\n72\n0\n255\n".toList := by decide
/-- 95_test_vectors E1. -/
theorem test_load : see (·.mem) (State.load [1#8, 2#8, 3#8, 4#8]) = some [(0, 1#8), (1, 2#8), (2, 3#8), (3, 4#8)] := by decide

/-! ## A state that meets the hypotheses of each statement, clause by clause where the clauses differ -/

theorem witness_length : decode [0x82#8, 7#8, 255#8] = .ok (.ldi 7#8 255#8, []) := rfl

theorem witness_step_runs_decoded :
    (at_ 253 [0x82#8, 0#8, 8#8]).run = .running ∧
      decode (bytesAtPc (at_ 253 [0x82#8, 0#8, 8#8])) = .ok (.ldi 0#8 8#8, []) := ⟨rfl, rfl⟩

theorem witness_stored_instruction :
    (at_ 253 []).wf ∧ (at_ 253 []).run = .running ∧ (at_ 253 []).pc.toNat + (Instr.add 1#8 2#8).length ≤ 256 := by decide

theorem witness_pc_after :
    (at_ 254 [85#8, 2#8]).run = .running ∧ after (·.run) (at_ 254 [85#8, 2#8]) = some .running ∧
      expectedPc (at_ 254 [85#8, 2#8]) = 256 := by decide

theorem witness_hlt :
    (at_ 255 [1#8]).run = .running ∧ (at_ 255 [1#8]).pc.toNat ≤ 255 ∧ opcodeAt (at_ 255 [1#8]) = 0x01#8 := by decide

theorem witness_only_hlt : after (·.run) (at_ 255 [1#8]) = some .halted ∧ after (·.run) (at_ 0 [0x21#8]) = some .faulted := by decide

/-- A program of exactly 256 bytes is within the first clause, one of 257 within the second. -/
theorem witness_load_lengths :
    (List.replicate 256 1#8).length ≤ 256 ∧ 256 < (List.replicate 257 1#8).length := by
  rw [List.length_replicate, List.length_replicate]; omega

theorem witness_address_map :
    see (fun t => (t.pc, t.sp)) (State.load [130#8, 0#8]) = some (0#9, 0xF4#8) ∧ (7#8 : Byte).toNat < 8 := by decide

theorem witness_loaded_state : see (fun t => decide t.wf) (State.load [17#8, 0#8]) = some true := by decide

theorem witness_step_keeps_invariants :
    (at_ 0 [69#8, 0#8]).wf ∧ after (fun t => decide t.wf) (at_ 0 [69#8, 0#8]) = some true := by decide

theorem witness_run_halts : see (·.run) (runFor 1 (at_ 0 [1#8])) = some .halted := by decide
theorem witness_run_faults : see (·.run) (runFor 1 (at_ 0 [0#8])) = some .faulted := by decide

theorem witness_self_jump :
    let s := withX (at_ 254 [84#8, 7#8]) 7 254#8
    s.run = .running ∧ s.pc.toNat ≤ 254 ∧ opcodeAt s = 0x54#8 ∧ op1At s = BitVec.ofNat 8 (7 : Fin 8).val ∧
      (s.x.get 7).toNat = s.pc.toNat := by decide

theorem witness_illegal :
    (at_ 255 [255#8]).run = .running ∧ (at_ 255 [255#8]).pc.toNat ≤ 255 ∧
      illegalOpcode (opcodeAt (at_ 255 [255#8])) = true := by decide
theorem witness_legal :
    (at_ 255 [17#8]).run = .running ∧ (at_ 255 [17#8]).pc.toNat ≤ 255 ∧
      illegalOpcode (opcodeAt (at_ 255 [17#8])) = false ∧ (at_ 255 [17#8]).fault = none ∧
      (after (·.fault) (at_ 255 [17#8])).isSome = true := by decide

theorem witness_fetch_past_256 : (at_ 256 []).run = .running ∧ 256 ≤ (at_ 256 []).pc.toNat := by decide
theorem witness_operand_past_255 :
    (at_ 255 [0x45#8]).pc.toNat = 255 ∧ opcodeAt (at_ 255 [0x45#8]) ∈ twoByteOpcodes ++ threeByteOpcodes ∧
      opcodeAt (at_ 255 [0xA7#8]) ∈ twoByteOpcodes ++ threeByteOpcodes := by decide
theorem witness_operand_past_254 :
    (at_ 254 [0x82#8]).pc.toNat = 254 ∧ opcodeAt (at_ 254 [0x82#8]) ∈ threeByteOpcodes := by decide
theorem witness_last_byte :
    (at_ 255 [0x01#8]).pc.toNat = 255 ∧ opcodeAt (at_ 255 [0x01#8]) = 0x01#8 ∧
      opcodeAt (at_ 255 [0x11#8]) = 0x11#8 := by decide

theorem witness_bad_register :
    (registerOperands (.ldi 8#8 1#8)).find? (fun c => decide (7 < c.toNat)) = some 8#8 ∧
      (registerOperands (.add 7#8 255#8)).find? (fun c => decide (7 < c.toNat)) = some 255#8 ∧
      (registerOperands (.cmp 9#8 10#8)).find? (fun c => decide (7 < c.toNat)) = some 9#8 := by decide

theorem witness_stack_faults :
    (7#8 : Byte).toNat < 8 ∧ (at_ 0 [] 0#8).sp = 0#8 ∧ (at_ 0 [] 255#8).sp = 255#8 ∧
      (at_ 254 [] 1#8).sp ≠ 0#8 ∧ 254 ≤ (at_ 254 [] 1#8).pc.toNat := by decide

/-- Each cause of 60_exceptions R142 and R146, and none. -/
theorem witness_expected_fault :
    (at_ 254 [80#8, 1#8]).wf ∧ (at_ 254 [80#8, 1#8]).run = .running ∧
      expectedFault (at_ 256 []) = some (.outOfBounds 256) ∧
      expectedFault (at_ 255 [0x41#8]) = some (.unsupportedOpcode 0x41#8) ∧
      expectedFault (at_ 254 [160#8, 9#8]) = some (.outOfBounds 256) ∧
      expectedFault (at_ 0 [160#8, 9#8, 10#8]) = some (.invalidRegister 9#8) ∧
      expectedFault (at_ 0 [160#8, 1#8, 10#8]) = some (.invalidRegister 10#8) ∧
      expectedFault (at_ 254 [80#8, 1#8] 0#8) = some (.outOfBounds (-1)) ∧
      expectedFault (at_ 15 [17#8] 255#8) = some (.outOfBounds 256) ∧
      expectedFault (at_ 254 [80#8, 1#8]) = some (.outOfBounds 256) ∧
      expectedFault (at_ 253 [80#8, 1#8]) = none := by decide

theorem witness_precise : after (·.run) (at_ 6 [69#8, 0#8] 0#8) = some .faulted := by decide

theorem witness_ram : Memory.wf [(0, 1#8), (255, 2#8)] = true ∧ (0 : Int) ≤ 255 ∧ (255 : Int) ≤ 255 := by decide
theorem witness_ram_prn : (after (·.mem) (at_ 0 [71#8, 0#8])).isSome = true ∧ see (·.out) (exec (.prn 7#8) State.reset) = some [244#8] := by decide
/-- 95_test_vectors E9. -/
theorem witness_out_of_range :
    memRead [] 256 = .error (.outOfBounds 256) ∧ memWrite [] (-1) 5#8 = .error (.outOfBounds (-1)) := ⟨rfl, rfl⟩
theorem witness_equal_memories : Memory.wf [(3, 1#8)] = true ∧ Memory.wf (Memory.write [(3, 1#8)] 4 0#8) = true := by decide

theorem witness_only_push_stores :
    let s := withX (at_ 6 [69#8, 0#8] 1#8) 0 171#8
    s.wf ∧ after (fun t => decide (Memory.read t.mem 0 ≠ Memory.read s.mem 0)) s = some true := by decide

theorem witness_next_fetch :
    let s := withX (at_ 6 [69#8, 0#8] 9#8) 0 0x21#8
    s.wf ∧ s.run = .running ∧ s.pc.toNat ≤ 254 ∧ opcodeAt s = 0x45#8 ∧ op1At s = BitVec.ofNat 8 (0 : Fin 8).val ∧
      s.sp ≠ 0#8 ∧ s.sp.toNat = s.pc.toNat + 3 ∧ illegalOpcode (s.x.get 0) = true := by decide

theorem witness_registers_read :
    let s := State.reset
    let y : Vector Byte 8 := #v[9#8, 0#8, 9#8, 9#8, 9#8, 9#8, 9#8, 9#8]
    s.run = .running ∧ (∀ k : Fin 8, k.val ∈ (registersRead s (.push 1#8)).map BitVec.toNat → y.get k = s.x.get k) ∧
      (see (·.sp) (exec (.push 1#8) s)) = some 243#8 ∧ (see (·.sp) (exec (.push 1#8) { s with x := y })) = some 243#8 := by decide

theorem witness_sp_moves :
    after (fun t => (t.run, t.sp)) (at_ 0 [70#8, 0#8] 254#8) = some (.running, 255#8) ∧
      after (fun t => (t.run, t.sp)) (at_ 0 [70#8, 0#8] 255#8) = some (.faulted, 255#8) := by decide
theorem witness_flag :
    after (·.fl) (at_ 0 [167#8, 0#8, 1#8]) = some 1#8 ∧ after (·.fl) (at_ 0 [160#8, 0#8, 1#8]) = some 0#8 := by decide
theorem witness_output : after (·.out) (at_ 0 [71#8, 7#8]) = some [244#8] := by decide

theorem witness_register_operand : (0#8 : Byte).toNat < 8 ∧ (7#8 : Byte).toNat < 8 := by decide
theorem witness_hlt_ldi_prn : Instr.wellFormed (.ldi 7#8 8#8) = true ∧ Instr.wellFormed (.prn 7#8) = true := by decide
theorem witness_push : State.reset.wf ∧ (at_ 0 [] 1#8).sp ≠ 0#8 ∧ (at_ 0 [] 1#8).wf := by decide
theorem witness_pop_ret : (at_ 0 [] 254#8).sp ≠ 255#8 := by decide
theorem witness_call : (at_ 253 [] 1#8).wf ∧ (at_ 253 [] 1#8).sp ≠ 0#8 ∧ (at_ 253 [] 1#8).pc.toNat ≤ 253 := by decide
theorem witness_control :
    see (fun t => (t.run, t.pc.toNat)) (exec .ret (at_ 0 [])) = some (.running, 0) ∧
      see (fun t => (t.run, t.pc.toNat)) (exec (.jne 7#8) (at_ 0 [])) = some (.running, 244) ∧
      see (fun t => (t.run, t.pc.toNat)) (exec (.jeq 7#8) (at_ 0 [])) = some (.running, 2) := by decide
/-- The control transfer's last clause: after the jump, the bytes at the target decode and the core is RUNNING. -/
theorem witness_control_target :
    let s := withX (at_ 0 [84#8, 0#8, 1#8]) 0 2#8
    see (fun t => (t.run, bytesAtPc t)) (exec (.jmp 0#8) s) = some (.running, [1#8, 0#8, 0#8]) ∧
      decode [1#8, 0#8, 0#8] = .ok (.hlt, [0#8, 0#8]) := ⟨by decide, rfl⟩
theorem witness_cmp_legal : State.reset.fl = 0#8 ∧ ({ State.reset with fl := 1#8 } : State).fl = 1#8 := by decide

theorem witness_frame_register_writers :
    (see (·.x[0]) (exec (.add 0#8 7#8) State.reset)) = some 244#8 ∧
      (see (·.run) (exec (.mul 0#8 8#8) State.reset)) = some .faulted ∧
      (see (·.x[7]) (exec (.ldi 7#8 1#8) State.reset)) = some 1#8 := by decide
theorem witness_frame_non_storing :
    (see (·.run) (exec .hlt State.reset)) = some .halted ∧ (see (·.out) (exec (.prn 7#8) State.reset)) = some [244#8] ∧
      (see (·.fl) (exec (.cmp 1#8 2#8) State.reset)) = some 1#8 ∧
      (see (·.run) (exec (.jeq 8#8) State.reset)) = some .faulted := by decide
theorem witness_frame_pop_ret :
    (see (·.sp) (exec (.pop 7#8) (at_ 0 [] 254#8))) = some 255#8 ∧
      (see (·.run) (exec .ret (at_ 0 [] 255#8))) = some .faulted := by decide
theorem witness_frame_push_call :
    (at_ 254 [] 1#8).wf ∧ (see (·.sp) (exec (.push 7#8) (at_ 254 [] 1#8))) = some 0#8 ∧
      (see (·.run) (exec (.call 7#8) (at_ 254 [] 1#8))) = some .faulted ∧
      (see (·.sp) (exec (.call 7#8) (at_ 253 [] 1#8))) = some 0#8 := by decide

theorem witness_push_then_pop :
    let s := withX (at_ 0 [] 1#8) 3 171#8
    s.wf ∧ s.sp ≠ 0#8 ∧ (see (fun t => (t.sp, Memory.read t.mem 0)) (exec (.push 3#8) s)) = some (0#8, 171#8) := by decide
theorem witness_call_then_ret :
    (see (fun t => (t.sp, Memory.read t.mem 0)) (exec (.call 7#8) (at_ 253 [] 1#8))) = some (0#8, 255#8) := by decide
theorem witness_render : renderOut [7#8] = ['7', '\n'] ∧ renderOut [] = [] := by decide

end Sys2Proof.Tests
end

/-! PROOFS. The output is write-only (10_state R21): whatever was printed before a step stands, unread, in front of what
the step prints. -/

namespace Sys2Proof.Machine

open Sys2Proof.Claims

/-- The state with `earlier` printed before everything in its output. -/
def State.prependOut (earlier : List Byte) (s : State) : State := { s with out := earlier ++ s.out }

/-- An answer with `earlier` printed before everything in the output of its next state. -/
def Answer.prependOut (earlier : List Byte) : Answer → Answer
  | .next t => .next (t.prependOut earlier)
  | .fault r => .fault r
  | .refused r => .refused r

@[simp] theorem Answer.prependOut_next (earlier : List Byte) (t : State) :
    Answer.prependOut earlier (.next t) = .next (t.prependOut earlier) := rfl

/-- A check passes the earlier output on, to its value's continuation or into the fault it takes. -/
theorem Answer.prependOut_orFault {α : Type} (earlier : List Byte) (r : Except FaultRecord α) (s : State)
    (go : α → Answer) :
    Answer.prependOut earlier (orFault r s go) =
      orFault r (s.prependOut earlier) fun a => Answer.prependOut earlier (go a) := by
  cases r <;> rfl

/-- An answer with earlier output in front is a next state only when the answer itself is. -/
theorem Answer.prependOut_eq_next {earlier : List Byte} {a : Answer} {t : State} :
    Answer.prependOut earlier a = .next t ↔ ∃ u, a = .next u ∧ u.prependOut earlier = t := by
  cases a <;> simp [Answer.prependOut]

theorem State.prependOut_emit (earlier : List Byte) (s : State) (v : Byte) :
    (s.emit v).prependOut earlier = (s.prependOut earlier).emit v := by
  simp [State.prependOut, State.emit]

theorem State.prependOut_advance (earlier : List Byte) (s : State) (n : Nat) :
    (s.advance n).prependOut earlier = (s.prependOut earlier).advance n := rfl

theorem State.prependOut_branchIf (earlier : List Byte) (taken : Bool) (i : Fin 8) (s : State) :
    (branchIf taken i s).prependOut earlier = branchIf taken i (s.prependOut earlier) := by
  cases taken <;> rfl

/-- No instruction reads the output. -/
theorem exec_prependOut (i : Instr) (earlier : List Byte) (s : State) :
    exec i (s.prependOut earlier) = Answer.prependOut earlier (exec i s) := by
  cases i
  case hlt => rfl
  case prn r =>
    simp only [exec, execPrn, Answer.prependOut_orFault, Answer.prependOut_next, State.prependOut_advance,
      State.prependOut_emit]
    rfl
  case jeq r | jne r =>
    simp only [exec, execJeq, execJne, Answer.prependOut_orFault, Answer.prependOut_next, State.prependOut_branchIf]
    rfl
  case ldi | push | pop | call | ret | jmp | add | mul | cmp =>
    simp only [exec, execLdi, execPush, execPop, execCall, execRet, execJmp, execAdd, execMul, execCmp,
      Answer.prependOut_orFault]
    rfl

/-- The fetch does not read the output. -/
theorem fetch_prependOut (earlier : List Byte) (s : State) : fetch (s.prependOut earlier) = fetch s := rfl

/-- No step reads the output. -/
theorem step_prependOut (earlier : List Byte) (s : State) :
    step (s.prependOut earlier) = Answer.prependOut earlier (step s) := by
  have hrun : (s.prependOut earlier).run = s.run := rfl
  unfold step
  rw [hrun]
  cases s.run with
  | halted => rfl
  | faulted => rfl
  | running => simp only [fetch_prependOut, exec_prependOut, Answer.prependOut_orFault]

/-- Only PRN's effect changes the output: it appends its register's value. -/
theorem Effect_out {i : Instr} {s t : State} (h : Effect s t i) :
    t.out = s.out ∨ ∃ r k, i = .prn r ∧ regIndex r = .ok k ∧ t.out = s.out ++ [s.getX k] := by
  cases i with
  | prn r => obtain ⟨k, hk, rfl⟩ := h; exact .inr ⟨r, k, rfl, hk, rfl⟩
  | hlt => cases h; exact .inl rfl
  | ldi r v => obtain ⟨i, -, rfl⟩ := h; exact .inl rfl
  | push r => obtain ⟨i, slot, -, -, rfl⟩ := h; exact .inl rfl
  | pop r => obtain ⟨i, slot, -, -, rfl⟩ := h; exact .inl rfl
  | call r => obtain ⟨i, slot, ret, -, -, -, rfl⟩ := h; exact .inl rfl
  | ret => obtain ⟨slot, -, rfl⟩ := h; exact .inl rfl
  | jmp r => obtain ⟨i, -, rfl⟩ := h; exact .inl rfl
  | jeq r | jne r =>
    obtain ⟨i, -, rfl⟩ := h
    rw [branchIf_frame]
    exact .inl rfl
  | add a b | mul a b | cmp a b => obtain ⟨i, j, -, -, rfl⟩ := h; exact .inl rfl

/-- A byte that passes the register check is the register's own number. -/
theorem eq_ofNat_of_regIndex_ok {b : Byte} {k : Fin 8} (h : regIndex b = .ok k) : b = BitVec.ofNat 8 k.val := by
  obtain ⟨hb, hok⟩ | ⟨-, herr⟩ := regIndex_cases b
  · cases hok.symm.trans h
    simp
  · cases herr.symm.trans h

/-- A step leaves the output alone, or appends the one value of the register that the PRN at `pc` names. -/
theorem step_out {s t : State} (h : step s = .next t) :
    t.out = s.out ∨
      opcodeAt s = 0x47#8 ∧ ∃ k : Fin 8, op1At s = BitVec.ofNat 8 k.val ∧ t.out = s.out ++ [s.getX k] := by
  obtain ⟨-, ⟨i, hfetch, heffect⟩ | ⟨f, rfl⟩⟩ := step_cases h
  · refine (Effect_out heffect).imp_right ?_
    rintro ⟨r, k, rfl, hk, hout⟩
    obtain ⟨-, hopcode, hoperand⟩ := fetch_ok hfetch
    have hop1 : op1At s = r := hoperand 0 Nat.one_pos
    exact ⟨hopcode, k, hop1.trans (eq_ofNat_of_regIndex_ok hk), hout⟩
  · exact .inl rfl

/-- Settles O32: every output is an empty one with the earlier values in front, so what a step prints is what it prints
on an empty output. -/
theorem outputIsWriteOnlyAndPrnsAlone : Obligations.OutputIsWriteOnlyAndPrnsAlone := by
  refine ⟨rfl, fun s t h => ?_⟩
  have step_with_out (earlier : List Byte) :
      step { s with out := earlier } = Answer.prependOut earlier (step { s with out := [] }) := by
    simpa [State.prependOut] using step_prependOut earlier { s with out := [] }
  obtain ⟨u, hu, rfl⟩ := Answer.prependOut_eq_next.mp ((step_with_out s.out).symm.trans h)
  refine ⟨u.out, rfl, fun hprinted => ?_, fun earlier => ?_⟩
  · obtain hout | ⟨hopcode, k, hop1, hout⟩ := step_out hu
    · exact absurd hout hprinted
    · exact ⟨hopcode, k, hop1, hout⟩
  · rw [step_with_out, hu]
    rfl

end Sys2Proof.Machine

/-! PROOFS. The address space (20_memory R36, R37): what a load leaves in it, and every cell as ordinary RAM. -/

namespace Sys2Proof.Machine

/-- An address past the last cell reads as unlisted. -/
theorem Memory.read_past {lo a : Nat} {m : Memory} (hm : Memory.wfFrom lo m = true) (ha : Config.memSize ≤ a) :
    Memory.read m a = Memory.unlisted := by
  induction m generalizing lo with
  | nil => rfl
  | cons e m ih =>
    obtain ⟨b, w⟩ := e
    obtain ⟨-, hb, -, htail⟩ := Memory.wfFrom_cons.mp hm
    rw [Memory.read_cons_entry, if_neg (by omega), ih htail]

/-- All a load can do: it answers a next state only for a program that fits, at the reset state but for memory. -/
theorem State.load_next {program : List Byte} {t : State} :
    State.load program = .next t ↔
      program.length ≤ Config.memSize ∧ t = { State.reset with mem := storeBytes State.reset.mem 0 program } := by
  by_cases hfits : program.length ≤ Config.memSize
  · simp [State.load, hfits, eq_comm]
  · simp [State.load, hfits]

/-- Loaded memory holds the program from address 0 and 0 everywhere else. -/
theorem read_loaded {program : List Byte} (hfits : program.length ≤ Config.memSize) (a : Nat) :
    Memory.read (storeBytes State.reset.mem 0 program) a = program[a]?.getD 0#8 := by
  by_cases ha : a < Config.memSize
  · rw [read_storeBytes reset_mem_wf 0 a program ha, if_pos a.zero_le]
    rfl
  · have hpast : Config.memSize ≤ a := Nat.not_lt.mp ha
    rw [Memory.read_past (storeBytes_keeps_wf reset_mem_wf 0 program) hpast,
      List.getElem?_eq_none (hfits.trans hpast)]
    rfl

/-- PUSH of a register completes where there is a slot. -/
theorem exec_push_of_slot {s : State} {r slot : Byte} (hr : r.toNat < 8) (hslot : pushSlot s.sp = .ok slot) :
    exec (.push r) s =
      .next ({ s with mem := Memory.write s.mem slot.toNat (s.getX ⟨r.toNat, hr⟩), sp := slot }.advance 1) := by
  simp only [exec, execPush, regIndex_ok hr, hslot, orFault_ok, memWrite_byte]

/-- CALL of a register completes where there is a slot and the return address is a byte. -/
theorem exec_call_of_slot {s : State} {r slot ret : Byte} (hr : r.toNat < 8) (hslot : pushSlot s.sp = .ok slot)
    (hret : returnAddress s.pc = .ok ret) :
    exec (.call r) s =
      .next ({ s with mem := Memory.write s.mem slot.toNat ret, sp := slot }.jump (s.getX ⟨r.toNat, hr⟩)) := by
  simp only [exec, execCall, regIndex_ok hr, hslot, hret, orFault_ok, memWrite_byte]

/-- Settles O13: the loader's memory is read off `read_loaded`; from `sp` 0xF4 and `pc` 0 the first push's slot is 0xF3 and
the return address is 2, so PUSH and CALL complete and each writes that one cell. -/
theorem addressMapAtReset : Obligations.AddressMapAtReset := by
  intro program t hload
  obtain ⟨hfits, rfl⟩ := State.load_next.mp hload
  have hwf : Memory.wf (storeBytes State.reset.mem 0 program) = true := storeBytes_keeps_wf reset_mem_wf 0 program
  have hslot : pushSlot Config.spReset = .ok 0xF3#8 := rfl
  have hret : returnAddress Config.entryPoint = .ok 2#8 := rfl
  refine ⟨rfl, fun a ha => ?_, fun a ha => ?_, rfl, fun r hr => ⟨?_, ?_⟩⟩
  · rw [read_loaded hfits, List.getElem?_eq_getElem ha, Option.getD_some]
  · rw [read_loaded hfits, List.getElem?_eq_none ha, Option.getD_none]
  · exact ⟨_, exec_push_of_slot hr hslot, rfl, fun _ => Memory.read_write_from hwf⟩
  · exact ⟨_, exec_call_of_slot hr hslot hret, rfl, fun _ => Memory.read_write_from hwf⟩

/-- An integer of 0 to 255 is the number of a cell. -/
theorem exists_cell_of_inside {a : Int} (hlo : 0 ≤ a) (hhi : a ≤ 255) : ∃ c : Nat, a = c ∧ c < Config.memSize := by
  obtain ⟨c, hac, hc, -⟩ | ⟨hout, -⟩ := cellOf_cases a
  · exact ⟨c, hac, hc⟩
  · exact absurd ⟨hlo, hhi⟩ hout

/-- A write leaves what `MemRead` answers at every other integer address, inside the address space or out of it. -/
theorem memRead_write_other {m : Memory} (hm : Memory.wf m = true) {a : Nat} {b : Int} (hne : b ≠ a) (v : Byte) :
    memRead (Memory.write m a v) b = memRead m b := by
  obtain ⟨c, rfl, hc, -⟩ | ⟨-, hout⟩ := cellOf_cases b
  · have hca : c ≠ a := fun h => hne (congrArg Nat.cast h)
    rw [memRead_inside _ hc, memRead_inside _ hc, Memory.read_write_other hm hca]
  · simp only [memRead, hout]

/-- PRN leaves memory as it was, whether it prints or takes a fault. -/
theorem exec_prn_mem {r : Byte} {s t : State} (h : exec (.prn r) s = .next t) : t.mem = s.mem := by
  obtain ⟨i, -, rfl⟩ | ⟨f, rfl⟩ := exec_cases h
  · rfl
  · rfl

/-- Settles O24: an address of 0 to 255 is a cell, where the laws of `Memory.write` apply; reset memory lists nothing. -/
theorem memoryIsOrdinaryRam : Obligations.MemoryIsOrdinaryRam := by
  refine ⟨fun m a hm hlo hhi v => ?_, fun a hlo hhi => ?_, fun r s t => exec_prn_mem⟩ <;>
    obtain ⟨c, rfl, hc⟩ := exists_cell_of_inside hlo hhi
  · refine ⟨Memory.write m c v, memWrite_inside m hc v, Memory.write_keeps_wf hm hc v, ?_,
      fun b hne => memRead_write_other hm hne v⟩
    rw [memRead_inside _ hc, Memory.read_write_same hm]
  · exact memRead_inside _ hc

end Sys2Proof.Machine

/-! PROOFS. The decoder's hits (30_encoding R50, R55): bytes that decode are the instruction's own encoding and the
bytes left over, so the opcode byte gives the length. -/

namespace Sys2Proof

/-- What a hit makes of its operand bytes is encoded by the opcode byte looked up and those operand bytes. -/
theorem encode_of_lookupOpcode {ir : Byte} {form : Form} (h : lookupOpcode ir = some form) :
    (∃ i, form = .noOperand i ∧ encode i = [ir]) ∨
      (∃ make, form = .oneOperand make ∧ ∀ b, encode (make b) = [ir, b]) ∨
      (∃ make, form = .twoOperands make ∧ ∀ b c, encode (make b c) = [ir, b, c]) := by
  rcases lookupOpcode_some h with e | e | e | e | e | e | e | e | e | e | e | e | e <;>
    obtain ⟨rfl, rfl⟩ := e <;>
    simp [encode, opcodeByte, operandBytes]

/-- Bytes that decode are the encoding of the instruction and the bytes left over. -/
theorem eq_encode_append_of_decode {bytes rest : List Byte} {i : Instr} (h : decode bytes = .ok (i, rest)) :
    bytes = encode i ++ rest := by
  rcases bytes with _ | ⟨ir, more⟩
  · cases h
  cases hl : lookupOpcode ir with
  | none => cases (decode_miss hl more).symm.trans h
  | some form =>
    obtain ⟨j, rfl, henc⟩ | ⟨make, rfl, henc⟩ | ⟨make, rfl, henc⟩ := encode_of_lookupOpcode hl
    · cases (decode_noOperand hl more).symm.trans h
      rw [henc, List.singleton_append]
    · obtain ⟨hmissing, hfits⟩ := decode_oneOperand hl
      rcases more with _ | ⟨b, more⟩
      · cases hmissing.symm.trans h
      · cases (hfits b more).symm.trans h
        rw [henc]
        rfl
    · obtain ⟨hmissing1, hmissing2, hfits⟩ := decode_twoOperands hl
      rcases more with _ | ⟨b, _ | ⟨c, more⟩⟩
      · cases hmissing1.symm.trans h
      · cases (hmissing2 b).symm.trans h
      · cases (hfits b c more).symm.trans h
        rw [henc]
        rfl

/-- An instruction is its opcode byte and as many operand bytes as that byte's top two bits count. -/
theorem Instr.length_eq_opcodeByte (i : Instr) : i.length = 1 + (opcodeByte i).toNat / 64 := by
  cases i <;> simp [Instr.length, encode, opcodeByte, operandBytes]

/-- Settles O4: the bytes are the instruction's encoding and the rest, so the first is its own opcode byte; the three
lengths are then read off the encoding, constructor by constructor. -/
theorem lengthComesFromTheOpcodeByte : Obligations.LengthComesFromTheOpcodeByte := by
  intro ir more rest i h
  have hbytes : ir :: more = encode i ++ rest := eq_encode_append_of_decode h
  obtain ⟨rfl, -⟩ := List.cons.inj hbytes
  refine ⟨i.length_eq_opcodeByte, ?_, by cases i <;> rfl⟩
  rw [hbytes, List.length_append, Instr.length]

end Sys2Proof

/-! PROOFS. UnsupportedOpcode (30_encoding R58, 60_exceptions R143): dispatch alone raises it, for the illegal bytes and
no others. -/

namespace Sys2Proof.Machine

open Sys2Proof.Claims

/-- The bytes that miss the lookup are the 243 of 30_encoding R58. -/
theorem lookupOpcode_eq_none_iff : ∀ ir : Byte, lookupOpcode ir = none ↔ illegalOpcode ir = true := by
  simp only [← Option.isNone_iff_eq_none]
  decide

/-- All a memory read can answer: a byte, or OutOfBounds with the address. -/
theorem memRead_cases (m : Memory) (addr : Int) :
    (∃ v, memRead m addr = .ok v) ∨ memRead m addr = .error (.outOfBounds addr) := by
  obtain ⟨a, -, -, hcell⟩ | ⟨-, hcell⟩ := cellOf_cases addr <;> simp [memRead, hcell]

/-- The operand fetch raises nothing but what its memory reads raise. -/
theorem fetchOperands_ne_unsupportedOpcode (s : State) (form : Form) (b : Byte) :
    fetchOperands s form ≠ .error (.unsupportedOpcode b) := by
  cases form with
  | noOperand i => simp [fetchOperands]
  | oneOperand make =>
    obtain ⟨v, h1⟩ | h1 := memRead_cases s.mem (s.pc.toNat + 1) <;> simp [fetchOperands, h1]
  | twoOperands make =>
    obtain ⟨v, h1⟩ | h1 := memRead_cases s.mem (s.pc.toNat + 1)
    · obtain ⟨w, h2⟩ | h2 := memRead_cases s.mem (s.pc.toNat + 2) <;> simp [fetchOperands, h1, h2]
    · simp [fetchOperands, h1]

/-- With `pc` an address of memory, the opcode fetch gives the byte there to dispatch. -/
theorem fetch_of_pc_inside {s : State} (hpc : s.pc.toNat < Config.memSize) :
    fetch s = (dispatch (opcodeAt s)).bind (fetchOperands s) := by
  rw [fetch, memRead_inside _ hpc, opcodeAt]
  dsimp only
  cases dispatch (Memory.read s.mem s.pc.toNat) <;> rfl

/-- The fetch raises UnsupportedOpcode for an illegal byte at `pc`, with that byte, and for no other reason. -/
theorem fetch_eq_unsupportedOpcode_iff {s : State} (hpc : s.pc.toNat < Config.memSize) (b : Byte) :
    fetch s = .error (.unsupportedOpcode b) ↔ illegalOpcode (opcodeAt s) = true ∧ opcodeAt s = b := by
  rw [fetch_of_pc_inside hpc, ← lookupOpcode_eq_none_iff]
  obtain ⟨form, hl, hd⟩ | ⟨hl, hd⟩ := dispatch_cases (opcodeAt s)
  · simpa [hl, hd, Except.bind] using fetchOperands_ne_unsupportedOpcode s form b
  · simp [hl, hd, Except.bind]

/-- The answer is a next state whose fault record is `f`. -/
def Answer.Records (f : FaultRecord) (a : Answer) : Prop := ∃ t, a = .next t ∧ t.fault = some f

@[simp] theorem Answer.records_next {f : FaultRecord} {t : State} :
    Answer.Records f (.next t) ↔ t.fault = some f := by
  simp [Answer.Records]

/-- A check leads to a fault record by raising it, or by going on to an answer with it. -/
theorem Answer.records_orFault {α : Type} {f : FaultRecord} {r : Except FaultRecord α} {s : State}
    {go : α → Answer} :
    Answer.Records f (orFault r s go) ↔ r = .error f ∨ ∃ a, r = .ok a ∧ Answer.Records f (go a) := by
  cases r <;> simp

theorem regIndex_ne_unsupportedOpcode (r b : Byte) : regIndex r ≠ .error (.unsupportedOpcode b) := by
  obtain ⟨_, h⟩ | ⟨-, h⟩ := regIndex_cases r <;> simp [h]

theorem pushSlot_ne_unsupportedOpcode (sp b : Byte) : pushSlot sp ≠ .error (.unsupportedOpcode b) := by
  obtain ⟨-, h⟩ | ⟨-, h, -⟩ := pushSlot_cases sp <;> simp [h]

theorem popSlot_ne_unsupportedOpcode (sp b : Byte) : popSlot sp ≠ .error (.unsupportedOpcode b) := by
  obtain ⟨-, h⟩ | ⟨-, h, -⟩ := popSlot_cases sp <;> simp [h]

theorem returnAddress_ne_unsupportedOpcode (pc : PcWord) (b : Byte) :
    returnAddress pc ≠ .error (.unsupportedOpcode b) := by
  obtain ⟨-, h⟩ | ⟨-, h⟩ := returnAddress_cases pc <;> simp [h]

@[simp] theorem branchIf_fault (taken : Bool) (i : Fin 8) (s : State) : (branchIf taken i s).fault = s.fault := by
  rw [branchIf_frame]

/-- No instruction's own phases raise UnsupportedOpcode: each of their checks raises another kind. -/
theorem exec_not_records_unsupportedOpcode {s : State} (hfault : s.fault = none) (i : Instr) (b : Byte) :
    ¬ Answer.Records (.unsupportedOpcode b) (exec i s) := by
  cases i <;>
    simp [exec, execHlt, execLdi, execPrn, execPush, execPop, execCall, execRet, execJmp, execJeq, execJne,
      execAdd, execMul, execCmp, Answer.records_orFault, regIndex_ne_unsupportedOpcode,
      pushSlot_ne_unsupportedOpcode, popSlot_ne_unsupportedOpcode, returnAddress_ne_unsupportedOpcode, hfault]

/-- An illegal byte at `pc` is all a step needs to fault; nothing but `run` and the fault record changes. -/
theorem step_of_illegalOpcode {s : State} (hrun : s.run = .running) (hpc : s.pc.toNat < Config.memSize)
    (h : illegalOpcode (opcodeAt s) = true) :
    step s = .next (takeFault (.unsupportedOpcode (opcodeAt s)) s) :=
  step_next.mpr ⟨hrun, .inr ⟨_, (fetch_eq_unsupportedOpcode_iff hpc _).mpr ⟨h, rfl⟩, rfl⟩⟩

/-- A legal byte at `pc` raises no UnsupportedOpcode, neither in the fetch nor in the instruction fetched. -/
theorem step_of_legalOpcode {s t : State} (hpc : s.pc.toNat < Config.memSize)
    (h : illegalOpcode (opcodeAt s) = false) (hfault : s.fault = none) (hstep : step s = .next t) (b : Byte) :
    t.fault ≠ some (.unsupportedOpcode b) := by
  intro ht
  obtain ⟨-, ⟨i, -, hexec⟩ | ⟨f, hfetch, rfl⟩⟩ := step_next.mp hstep
  · exact exec_not_records_unsupportedOpcode hfault i b ⟨t, hexec, ht⟩
  · cases ht
    obtain ⟨hill, -⟩ := (fetch_eq_unsupportedOpcode_iff hpc b).mp hfetch
    exact absurd (h.symm.trans hill) Bool.false_ne_true

/-- Settles O18: `step_of_illegalOpcode` speaks of the byte at `pc` alone, so it also gives the step in any other memory
with that byte; the faulted state is not RUNNING, so no step follows. -/
theorem illegalOpcodeStopsTheCore : Obligations.IllegalOpcodeStopsTheCore := by
  intro s hrun hle
  have hpc : s.pc.toNat < Config.memSize := Nat.lt_succ_of_le hle
  refine ⟨fun hill => ?_, fun hlegal hfault t b hstep => step_of_legalOpcode hpc hlegal hfault hstep b⟩
  refine ⟨_, step_of_illegalOpcode hrun hpc hill, rfl, rfl, rfl, fun u hu => ?_, fun m hm => ?_⟩
  · obtain ⟨hrunning, -⟩ := step_next.mp hu
    cases hrunning
  · have hbyte : opcodeAt { s with mem := m } = opcodeAt s := hm
    rw [step_of_illegalOpcode (s := { s with mem := m }) hrun hpc (hbyte ▸ hill), hbyte]
    rfl

end Sys2Proof.Machine

/-! PROOFS. When a step is taken (40_cycle R71), and the step that halts (40_cycle R77). -/

namespace Sys2Proof.Machine

open Sys2Proof.Claims

/-- A RUNNING core takes a step: of the instruction fetched, or of the fault its fetch raised. -/
theorem step_answers {s : State} (hrun : s.run = .running) : ∃ t, step s = .next t := by
  cases hfetch : fetch s with
  | ok i =>
    obtain ⟨t, hexec⟩ := exec_answers i s
    exact ⟨t, step_next.mpr ⟨hrun, .inl ⟨i, hfetch, hexec⟩⟩⟩
  | error f => exact ⟨takeFault f s, step_next.mpr ⟨hrun, .inr ⟨f, hfetch, rfl⟩⟩⟩

/-- Settles O8: a step taken began RUNNING by `step_next`; a RUNNING core takes one by `step_answers`. -/
theorem stepsExactlyWhileRunning : Obligations.StepsExactlyWhileRunning := by
  intro s
  constructor
  · rintro ⟨t, hstep⟩
    obtain ⟨hrun, -⟩ := step_next.mp hstep
    exact hrun
  · exact step_answers

/-- HLT has no operand bytes, so its opcode byte at `pc` is all the fetch needs, at the last cell too (40_cycle R74). -/
theorem fetch_hlt {s : State} (hpc : s.pc.toNat < Config.memSize) (hopcode : opcodeAt s = opcodeByte .hlt) :
    fetch s = .ok .hlt :=
  fetch_at hpc hopcode fun k hk => absurd hk (Nat.not_lt_zero k)

/-- Settles O10: the whole state HLT answers is its definition's, and a step that reads its byte fetches HLT. -/
theorem hltAdvancesThenHalts : Obligations.HltAdvancesThenHalts := by
  intro s
  have hexec : exec .hlt s = .next { s with pc := s.pc + 1#9, run := .halted } := rfl
  refine ⟨hexec, fun hrun hle hopcode => ?_⟩
  have hfetch : fetch s = .ok .hlt := fetch_hlt (Nat.lt_succ_of_le hle) hopcode
  exact step_next.mpr ⟨hrun, .inl ⟨.hlt, hfetch, hexec⟩⟩

end Sys2Proof.Machine

/-! PROOFS. HLT, LDI and PRN stand apart from memory, the stack pointer and the flags (41_halt_load_print R90): each
commutes with replacing the three, and a meaning that does neither reads nor writes them. -/

namespace Sys2Proof.Machine

/-- The three instructions of 41_halt_load_print. -/
def HaltLoadOrPrint (i : Instr) : Prop := i = .hlt ∨ (∃ r v, i = .ldi r v) ∨ ∃ r, i = .prn r

/-- The state with its memory, stack pointer and flags replaced. -/
def State.withMemSpFl (s : State) (m : Memory) (sp fl : Byte) : State := { s with mem := m, sp := sp, fl := fl }

theorem isRegister_iff {b : Byte} : isRegister b = true ↔ b.toNat < 8 := decide_eq_true_iff

/-- LDI to a register completes. -/
theorem exec_ldi_of_register {r : Byte} (hr : r.toNat < 8) (v : Byte) (s : State) :
    exec (.ldi r v) s = .next ((s.setX ⟨r.toNat, hr⟩ v).advance 2) := by
  simp only [exec, execLdi, regIndex_ok hr, orFault_ok]

/-- PRN of a register completes. -/
theorem exec_prn_of_register {r : Byte} (hr : r.toNat < 8) (s : State) :
    exec (.prn r) s = .next ((s.emit (s.getX ⟨r.toNat, hr⟩)).advance 1) := by
  simp only [exec, execPrn, regIndex_ok hr, orFault_ok]

/-- A check that does not read the three passes their replacement on, to its continuation or into the fault. -/
theorem orFault_withMemSpFl {α : Type} {r : Except FaultRecord α} {s t : State} {go : State → α → State}
    {m : Memory} {sp fl : Byte} (hgo : ∀ a, go (s.withMemSpFl m sp fl) a = (go s a).withMemSpFl m sp fl)
    (h : orFault r s (fun a => .next (go s a)) = .next t) :
    orFault r (s.withMemSpFl m sp fl) (fun a => .next (go (s.withMemSpFl m sp fl) a)) =
      .next (t.withMemSpFl m sp fl) := by
  cases r with
  | ok a => cases h; exact congrArg _ (hgo a)
  | error f => cases h; rfl

/-- With the three replaced, HLT, LDI and PRN answer the same state but for those. -/
theorem exec_withMemSpFl {i : Instr} {s t : State} (hi : HaltLoadOrPrint i) (h : exec i s = .next t) (m : Memory)
    (sp fl : Byte) : exec i (s.withMemSpFl m sp fl) = .next (t.withMemSpFl m sp fl) := by
  obtain rfl | ⟨r, v, rfl⟩ | ⟨r, rfl⟩ := hi
  · cases h; rfl
  · exact orFault_withMemSpFl (go := fun s k => (s.setX k v).advance 2) (fun _ => rfl) h
  · exact orFault_withMemSpFl (go := fun s k => (s.emit (s.getX k)).advance 1) (fun _ => rfl) h

/-- HLT, LDI and PRN write none of the three: replacing them by the values they have already must change nothing. -/
theorem exec_frame_memSpFl {i : Instr} {s t : State} (hi : HaltLoadOrPrint i) (h : exec i s = .next t) :
    t.mem = s.mem ∧ t.sp = s.sp ∧ t.fl = s.fl := by
  have hown : t = t.withMemSpFl s.mem s.sp s.fl :=
    Host.Outcome.next.inj (h.symm.trans (exec_withMemSpFl hi h s.mem s.sp s.fl))
  exact ⟨(congrArg State.mem hown :), (congrArg State.sp hown :), (congrArg State.fl hown :)⟩

/-- HLT, LDI and PRN take the generic advance when their register operand, if any, names a register. -/
theorem exec_haltLoadOrPrint_pc {i : Instr} {s t : State} (hi : HaltLoadOrPrint i) (hwf : i.wellFormed = true)
    (h : exec i s = .next t) : t.pc = s.pc + BitVec.ofNat 9 ((operandBytes i).length + 1) := by
  obtain rfl | ⟨r, v, rfl⟩ | ⟨r, rfl⟩ := hi
  · cases h; rfl
  · cases (exec_ldi_of_register (isRegister_iff.mp hwf) v s).symm.trans h; rfl
  · cases (exec_prn_of_register (isRegister_iff.mp hwf) s).symm.trans h; rfl

/-- HLT, LDI and PRN have sets-PC bit 0 (bit 4 of the opcode byte, 30_encoding R51). -/
theorem setpc_of_haltLoadOrPrint {i : Instr} (hi : HaltLoadOrPrint i) :
    (opcodeFields (opcodeByte i)).setpc = false := by
  obtain rfl | ⟨r, v, rfl⟩ | ⟨r, rfl⟩ := hi <;> simp [opcodeFields, opcodeByte]

/-- Settles O35: `exec_withMemSpFl` is the independence, the frame follows from it, and the number of operands is
read off each instruction. -/
theorem hltLdiPrnUseNoMemoryStackOrFlag : Obligations.HltLdiPrnUseNoMemoryStackOrFlag := by
  intro i s hi
  obtain ⟨t, ht⟩ := exec_answers i s
  obtain ⟨hmem, hsp, hfl⟩ := exec_frame_memSpFl hi ht
  refine ⟨⟨t, ht, hmem, hsp, hfl, fun hwf => exec_haltLoadOrPrint_pc hi hwf ht, exec_withMemSpFl hi ht⟩,
    setpc_of_haltLoadOrPrint hi, ?_⟩
  obtain rfl | ⟨r, v, rfl⟩ | ⟨r, rfl⟩ := hi <;> rfl

end Sys2Proof.Machine

/-! PROOFS. The decoder agrees with the fetch: an instruction decoded from the bytes at `pc` is the one the next step
runs (40_cycle R70). -/

namespace Sys2Proof.Machine

/-- Every byte loaded is a cell's, in ascending order from the first address. -/
theorem read_of_loadBytes {m : Memory} {a n k : Nat} {v : Byte} (h : (loadBytes m a n)[k]? = some v) :
    a + k < Config.memSize ∧ Memory.read m (a + k) = v := by
  induction n generalizing a k with
  | zero => simp [loadBytes] at h
  | succ n ih =>
    by_cases ha : a < Config.memSize
    · rw [loadBytes, if_pos ha] at h
      cases k with
      | zero => exact ⟨ha, Option.some.inj h⟩
      | succ k =>
        rw [List.getElem?_cons_succ] at h
        rw [← Nat.succ_add_eq_add_succ]
        exact ih h
    · simp [loadBytes, ha] at h

/-- The instruction decoded from the bytes at `pc` is the one fetched there: the bytes loaded are its encoding. -/
theorem fetch_of_decode {s : State} {i : Instr} {rest : List Byte} (h : decode (bytesAtPc s) = .ok (i, rest)) :
    fetch s = .ok i := by
  have hbytes : bytesAtPc s = encode i ++ rest := eq_encode_append_of_decode h
  have hat : ∀ k, (hk : k < (encode i).length) →
      s.pc.toNat + k < Config.memSize ∧ Memory.read s.mem (s.pc.toNat + k) = (encode i)[k] := by
    intro k hk
    apply read_of_loadBytes (n := 3)
    rw [← bytesAtPc, hbytes, List.getElem?_append_left hk, List.getElem?_eq_getElem hk]
  obtain ⟨hlast, -⟩ := hat (operandBytes i).length (Nat.lt_succ_self _)
  obtain ⟨-, hopcode⟩ := hat 0 (Nat.succ_pos _)
  refine fetch_at hlast hopcode fun k hk => ?_
  obtain ⟨-, hoperand⟩ := hat (k + 1) (Nat.succ_lt_succ hk)
  rwa [Nat.add_right_comm]

/-- A step of a RUNNING core runs the instruction decoded at `pc`. -/
theorem step_of_decode {s : State} {i : Instr} {rest : List Byte} (hrun : s.run = .running)
    (h : decode (bytesAtPc s) = .ok (i, rest)) : step s = exec i s := by
  rw [step, hrun, fetch_of_decode h]
  rfl

end Sys2Proof.Machine

/-! PROOFS. The control transfers go to a byte address and write no general register or flag (43_control R110). -/

namespace Sys2Proof.Machine

open Sys2Proof.Claims

/-- The five instructions of 43_control, with the operand byte of the four that have one. -/
def ControlTransfer (i : Instr) (r : Byte) : Prop :=
  i = .call r ∨ i = .ret ∨ i = .jmp r ∨ i = .jeq r ∨ i = .jne r

/-- A conditional branch the flag does not take (43_control R114, R115). -/
def BranchNotTaken (i : Instr) (r : Byte) (s : State) : Prop :=
  (i = .jeq r ∧ s.fl.getLsbD 0 = false) ∨ (i = .jne r ∧ s.fl.getLsbD 0 = true)

/-- A control transfer's target: the byte popped for RET, otherwise the named register's value (43_control R110). -/
def transferTarget (i : Instr) (r : Byte) (s : State) : Byte :=
  if i = .ret then Memory.read s.mem s.sp.toNat else xAt s r

theorem State.jump_pc_toNat (s : State) (target : Byte) : (s.jump target).pc.toNat = target.toNat :=
  BitVec.toNat_setWidth_of_le (by decide)

theorem xAt_of_regIndex {r : Byte} {k : Fin 8} (h : regIndex r = .ok k) (s : State) : xAt s r = s.getX k := by
  obtain ⟨hr, hk⟩ | ⟨-, hk⟩ := regIndex_cases r <;> cases hk.symm.trans h
  exact dif_pos hr

/-- What a control transfer that raises no fault does to the registers, the flags and `pc`. -/
def Transferred (i : Instr) (r : Byte) (s t : State) : Prop :=
  t.x = s.x ∧ t.fl = s.fl ∧ (BranchNotTaken i r s ∨ t.pc.toNat = (transferTarget i r s).toNat)

/-- Control transfers have sets-PC bit 1 (bit 4 of the opcode byte, 30_encoding R51). -/
theorem setpc_of_controlTransfer {i : Instr} {r : Byte} (hi : ControlTransfer i r) :
    (opcodeFields (opcodeByte i)).setpc = true := by
  obtain rfl | rfl | rfl | rfl | rfl := hi <;> simp [opcodeFields, opcodeByte]

/-- A transfer with an operand goes to its register's value. -/
theorem jump_getX_pc_toNat {i : Instr} {r : Byte} {k : Fin 8} {s : State} (hi : i ≠ .ret) (hk : regIndex r = .ok k)
    (u : State) : (u.jump (s.getX k)).pc.toNat = (transferTarget i r s).toNat := by
  rw [State.jump_pc_toNat, transferTarget, if_neg hi, xAt_of_regIndex hk]

/-- A conditional branch goes to its register's value, or is not taken. -/
theorem branchIf_transferred {i : Instr} {r : Byte} {k : Fin 8} {s : State} {taken : Bool} (hi : i ≠ .ret)
    (hk : regIndex r = .ok k) (hnot : taken = false → BranchNotTaken i r s) :
    Transferred i r s (branchIf taken k s) := by
  obtain ⟨-, hjump⟩ | ⟨hfalse, hadvance⟩ := branchIf_cases taken k s
  · exact hjump ▸ ⟨rfl, rfl, .inr (jump_getX_pc_toNat hi hk s)⟩
  · exact hadvance ▸ ⟨rfl, rfl, .inl (hnot hfalse)⟩

/-- Each of the five effects: a jump to the target, or a branch on the flag. -/
theorem Effect_transferred {i : Instr} {r : Byte} {s t : State} (hi : ControlTransfer i r) (h : Effect s t i) :
    Transferred i r s t := by
  obtain rfl | rfl | rfl | rfl | rfl := hi
  · obtain ⟨k, slot, ret, hk, -, -, rfl⟩ := h
    exact ⟨rfl, rfl, .inr (jump_getX_pc_toNat (by nofun) hk _)⟩
  · obtain ⟨slot, -, rfl⟩ := h
    exact ⟨rfl, rfl, .inr (State.jump_pc_toNat _ _)⟩
  · obtain ⟨k, hk, rfl⟩ := h
    exact ⟨rfl, rfl, .inr (jump_getX_pc_toNat (by nofun) hk s)⟩
  · obtain ⟨k, hk, rfl⟩ := h
    exact branchIf_transferred (by nofun) hk fun hclear => .inl ⟨rfl, hclear⟩
  · obtain ⟨k, hk, rfl⟩ := h
    exact branchIf_transferred (by nofun) hk fun hset => .inr ⟨rfl, Bool.not_eq_eq_eq_not.mp hset⟩

/-- Settles O41: a transfer that completes has the frame and target of its effect, a fault changes only `run` and the
fault record, and the last clause holds of every RUNNING state by `step_of_decode`. -/
theorem controlTransfersGoToAByteAddress : Obligations.ControlTransfersGoToAByteAddress := by
  intro i s t r hi _ hexec
  have hsetpc : (opcodeFields (opcodeByte i)).setpc = true := setpc_of_controlTransfer hi
  obtain heffect | ⟨f, rfl⟩ := exec_cases hexec
  · obtain ⟨hx, hfl, hpc⟩ := Effect_transferred hi heffect
    exact ⟨hsetpc, hx, hfl, fun _ => hpc, fun _ _ => step_of_decode⟩
  · exact ⟨hsetpc, rfl, rfl, fun hcompletes => absurd rfl hcompletes, fun _ _ => step_of_decode⟩

end Sys2Proof.Machine

/-! PROOFS. The ALU's arithmetic laws (44_alu R130): the byte kept is the sum or product of words, so it is the exact
result modulo 256 in either reading. -/

namespace Sys2Proof.Machine

theorem aluAdd_eq_add (u v : Byte) : aluAdd u v = u + v :=
  BitVec.eq_of_toNat_eq (by simp [aluAdd])

theorem aluMul_eq_mul (u v : Byte) : aluMul u v = u * v :=
  BitVec.eq_of_toNat_eq (by simp [aluMul])

section
variable {a b : Byte} (ha : a.toNat < 8) (hb : b.toNat < 8) (s : State)

/-- ADD of two registers completes. -/
theorem exec_add_of_registers :
    exec (.add a b) s =
      .next ((s.setX ⟨a.toNat, ha⟩ (s.getX ⟨a.toNat, ha⟩ + s.getX ⟨b.toNat, hb⟩)).advance 2) := by
  simp only [exec, execAdd, regIndex_ok ha, regIndex_ok hb, orFault_ok, aluAdd_eq_add]

/-- MUL of two registers completes. -/
theorem exec_mul_of_registers :
    exec (.mul a b) s =
      .next ((s.setX ⟨a.toNat, ha⟩ (s.getX ⟨a.toNat, ha⟩ * s.getX ⟨b.toNat, hb⟩)).advance 2) := by
  simp only [exec, execMul, regIndex_ok ha, regIndex_ok hb, orFault_ok, aluMul_eq_mul]

/-- CMP of two registers completes. -/
theorem exec_cmp_of_registers :
    exec (.cmp a b) s =
      .next ({ s with fl := setFlagE s.fl (equalFlag (s.getX ⟨a.toNat, ha⟩) (s.getX ⟨b.toNat, hb⟩)) }.advance 2) := by
  simp only [exec, execCmp, regIndex_ok ha, regIndex_ok hb, orFault_ok]

end

/-- The three instructions of 44_alu have the ALU bit, not the sets-PC bit, and their two operands. -/
theorem opcodeFields_of_aluInstr {i : Instr} {a b : Byte} (hi : i = .add a b ∨ i = .mul a b ∨ i = .cmp a b) :
    (opcodeFields (opcodeByte i)).alu = true ∧ (opcodeFields (opcodeByte i)).setpc = false ∧
      operandBytes i = [a, b] := by
  obtain rfl | rfl | rfl := hi <;> simp [opcodeFields, opcodeByte, operandBytes]

/-- Settles O42: each instruction completes on registers; the byte ADD or MUL writes is the sum or product of words,
whose unsigned and signed values the library gives, and CMP's bit 0 is the flag it wrote. -/
theorem aluArithmeticLaws : Obligations.AluArithmeticLaws := by
  intro s a b ha hb u v
  refine ⟨⟨u + v, ?_, BitVec.toNat_add u v, BitVec.toInt_add u v⟩,
    ⟨u * v, ?_, BitVec.toNat_mul u v, BitVec.toInt_mul u v⟩,
    ⟨setFlagE s.fl (equalFlag u v), ?_, ?_⟩, fun _ => opcodeFields_of_aluInstr⟩
  · exact exec_add_of_registers ha hb s
  · exact exec_mul_of_registers ha hb s
  · exact exec_cmp_of_registers ha hb s
  · exact flagE_setFlagE s.fl (equalFlag u v)

end Sys2Proof.Machine

/-! PROOFS. The encoding as a table (30_encoding sections 1 to 3): decode and encode agree, the decoder's answers by the
opcode byte, and the four fields of the opcode byte. -/

namespace Sys2Proof

/-- An instruction's encoding decodes to it, whatever follows. -/
theorem decode_encode_append (i : Instr) (rest : List Byte) : decode (encode i ++ rest) = .ok (i, rest) := by
  obtain ⟨hl, hb⟩ | ⟨make, b, hl, hb, rfl⟩ | ⟨make, b, c, hl, hb, rfl⟩ := lookupOpcode_opcodeByte i
  · rw [encode, hb]
    exact decode_noOperand hl rest
  · rw [encode, hb]
    obtain ⟨-, hfits⟩ := decode_oneOperand hl
    exact hfits b rest
  · rw [encode, hb]
    obtain ⟨-, -, hfits⟩ := decode_twoOperands hl
    exact hfits b c rest

/-- Settles O3: bytes that decode are an encoding and the rest, and an encoding decodes whatever follows it. -/
theorem decodeAndEncodeAgree : Obligations.DecodeAndEncodeAgree := by
  intro bytes i rest
  constructor
  · exact eq_encode_append_of_decode
  · rintro rfl
    exact decode_encode_append i rest

/-- Every instruction's opcode byte is in the table. -/
theorem lookupOpcode_opcodeByte_ne_none (i : Instr) : lookupOpcode (opcodeByte i) ≠ none := by
  obtain ⟨hl, -⟩ | ⟨make, b, hl, -⟩ | ⟨make, b, c, hl, -⟩ := lookupOpcode_opcodeByte i <;> simp [hl]

/-- Settles O2: a byte that hits the lookup is one of the thirteen, whose answer is read off the table; a byte that misses
is no instruction's opcode byte and is rejected. -/
theorem dispatchIsOnTheFullByte : Obligations.DispatchIsOnTheFullByte := by
  intro ir b c
  cases hl : lookupOpcode ir with
  | some form =>
    rcases lookupOpcode_some hl with e | e | e | e | e | e | e | e | e | e | e | e | e <;>
      obtain ⟨rfl, -⟩ := e <;> rfl
  | none =>
    have hne : ∀ i : Instr, ir ≠ opcodeByte i := fun i he => lookupOpcode_opcodeByte_ne_none i (he ▸ hl)
    rw [decode_miss hl]
    exact ((if_neg (hne .hlt)).trans <| (if_neg (hne (.ldi b c))).trans <| (if_neg (hne (.prn b))).trans <|
      (if_neg (hne (.push b))).trans <| (if_neg (hne (.pop b))).trans <| (if_neg (hne (.call b))).trans <|
      (if_neg (hne .ret)).trans <| (if_neg (hne (.jmp b))).trans <| (if_neg (hne (.jeq b))).trans <|
      (if_neg (hne (.jne b))).trans <| (if_neg (hne (.add b c))).trans <| (if_neg (hne (.mul b c))).trans <|
      if_neg (hne (.cmp b c))).symm

/-- A byte is the sum of its fields, each at its place. -/
theorem toNat_eq_opcodeFields (ir : Byte) :
    ir.toNat = 64 * (opcodeFields ir).n.toNat + 32 * (opcodeFields ir).alu.toNat +
      16 * (opcodeFields ir).setpc.toNat + (opcodeFields ir).id.toNat := by
  have hn : (opcodeFields ir).n.toNat = ir.toNat / 64 % 4 := by
    simp [opcodeFields, Nat.shiftRight_eq_div_pow]
  have halu : (opcodeFields ir).alu.toNat = ir.toNat / 32 % 2 := Nat.toNat_testBit ir.toNat 5
  have hsetpc : (opcodeFields ir).setpc.toNat = ir.toNat / 16 % 2 := Nat.toNat_testBit ir.toNat 4
  have hid : (opcodeFields ir).id.toNat = ir.toNat % 16 := by simp [opcodeFields]
  have hlt : ir.toNat < 256 := ir.isLt
  omega

/-- Settles O1: the layout is `toNat_eq_opcodeFields`, from which equal fields give equal bytes; what the fields of each
opcode say is read off constructor by constructor. -/
theorem opcodeFieldsFollowTheBitLayout : Obligations.OpcodeFieldsFollowTheBitLayout := by
  refine ⟨toNat_eq_opcodeFields, fun i => ?_, fun i j hfields => ?_⟩
  · cases i <;> simp [opcodeFields, opcodeByte, operandBytes]
  · apply BitVec.eq_of_toNat_eq
    rw [toNat_eq_opcodeFields, hfields, ← toNat_eq_opcodeFields]

/-- Settles O5: each word is the encoding of its instruction, and byte 33 misses the lookup. -/
theorem sampleWordsDecode : Obligations.SampleWordsDecode :=
  ⟨decode_encode_append .hlt [], decode_encode_append (.ldi 3#8 255#8) [], decode_encode_append (.prn 7#8) [],
    decode_encode_append (.push 1#8) [], decode_encode_append (.jeq 2#8) [], decode_encode_append (.mul 4#8 5#8) [],
    decode_miss rfl []⟩

end Sys2Proof

/-! PROOFS. What a step fetches (40_cycle R72 to R74): the stored instruction, or the fault of the first phase that
fails. -/

namespace Sys2Proof.Machine

open Sys2Proof.Claims

/-- Settles O6: `step_of_decode`. -/
theorem stepRunsTheDecodedInstruction : Obligations.StepRunsTheDecodedInstruction :=
  fun _ _ _ => step_of_decode

/-- A step of a RUNNING core runs the instruction fetched. -/
theorem step_of_fetch {s : State} {i : Instr} (hrun : s.run = .running) (hfetch : fetch s = .ok i) :
    step s = exec i s := by
  rw [step, hrun, hfetch]
  rfl

/-- A step of a RUNNING core whose fetch faults takes that fault. -/
theorem step_of_fetch_error {s : State} {f : FaultRecord} (hrun : s.run = .running) (hfetch : fetch s = .error f) :
    step s = .next (takeFault f s) := by
  rw [step, hrun, hfetch]
  rfl

theorem opcodeAt_of_fetch {s : State} {i : Instr} (h : fetch s = .ok i) : opcodeAt s = opcodeByte i := by
  obtain ⟨-, hopcode, -⟩ := fetch_ok h
  exact hopcode

theorem inside_of_fetch {s : State} {i : Instr} (h : fetch s = .ok i) :
    s.pc.toNat + (operandBytes i).length < 256 := by
  obtain ⟨hpc, -, -⟩ := fetch_ok h
  exact hpc

/-- The operand byte after the opcode byte is the first operand of the instruction fetched. -/
theorem op1At_of_fetch {s : State} {i : Instr} {r : Byte} {rest : List Byte} (h : fetch s = .ok i)
    (hi : operandBytes i = r :: rest) : op1At s = r := by
  obtain ⟨-, -, hoperand⟩ := fetch_ok h
  have h0 := hoperand 0 (by simp [hi])
  simpa [op1At, hi] using h0

theorem op2At_of_fetch {s : State} {i : Instr} {a b : Byte} {rest : List Byte} (h : fetch s = .ok i)
    (hi : operandBytes i = a :: b :: rest) : op2At s = b := by
  obtain ⟨-, -, hoperand⟩ := fetch_ok h
  have h1 := hoperand 1 (by simp [hi])
  simpa [op2At, hi, Nat.add_assoc] using h1

/-- Stored bytes that fit read back. -/
theorem read_storeBytes_getElem {m : Memory} (hm : Memory.wf m = true) {a k : Nat} {vs : List Byte}
    (hk : k < vs.length) (hfits : a + k < Config.memSize) : Memory.read (storeBytes m a vs) (a + k) = vs[k] := by
  rw [read_storeBytes hm a (a + k) vs hfits, if_pos (Nat.le_add_right a k), Nat.add_sub_cancel_left,
    List.getElem?_eq_getElem hk, Option.getD_some]

/-- An instruction stored from `pc`, where it fits, is what the fetch answers. -/
theorem fetch_storeBytes_encode {s : State} {i : Instr} (hm : Memory.wf s.mem = true)
    (hfits : s.pc.toNat + (operandBytes i).length < Config.memSize) :
    fetch { s with mem := storeBytes s.mem s.pc.toNat (encode i) } = .ok i := by
  have hread : ∀ k, (hk : k < (encode i).length) →
      Memory.read (storeBytes s.mem s.pc.toNat (encode i)) (s.pc.toNat + k) = (encode i)[k] := by
    intro k hk
    have hk' : k < (operandBytes i).length + 1 := hk
    exact read_storeBytes_getElem hm hk (by omega)
  refine fetch_at hfits (hread 0 (Nat.succ_pos _)) fun k hk => ?_
  have hoperand := hread (k + 1) (Nat.succ_lt_succ hk)
  rwa [← Nat.add_assoc, Nat.add_right_comm] at hoperand

/-- Settles O7: the stored bytes read back, so the step fetches the instruction they encode. -/
theorem storedInstructionIsExecuted : Obligations.StoredInstructionIsExecuted := by
  rintro s i ⟨hm, -⟩ hrun hfits
  exact step_of_fetch hrun (fetch_storeBytes_encode hm hfits)

/-- How many operand bytes a dispatch-table entry asks for. -/
def operandCount : Form → Nat
  | .noOperand _ => 0
  | .oneOperand _ => 1
  | .twoOperands _ => 2

/-- An entry asks for as many operand bytes as the top two bits of its opcode byte count (30_encoding R56). -/
theorem operandCount_of_lookupOpcode {ir : Byte} {form : Form} (h : lookupOpcode ir = some form) :
    operandCount form = ir.toNat / 64 := by
  rcases lookupOpcode_some h with e | e | e | e | e | e | e | e | e | e | e | e | e <;>
    obtain ⟨rfl, rfl⟩ := e <;> rfl

/-- The first address past the last cell holds nothing to read. -/
theorem memRead_at_end (m : Memory) {addr : Int} (h : addr = 256) : memRead m addr = .error (.outOfBounds 256) := by
  rw [h]
  exact memRead_past m le_rfl

/-- All the operand fetch can answer: an instruction when the operand bytes lie in memory, else the fault of address
256, the first that does not exist. -/
theorem fetchOperands_cases {s : State} (hpc : s.pc.toNat < 256) (form : Form) :
    (s.pc.toNat + operandCount form < 256 ∧ ∃ i, fetchOperands s form = .ok i) ∨
      (256 ≤ s.pc.toNat + operandCount form ∧ fetchOperands s form = .error (.outOfBounds 256)) := by
  cases form with
  | noOperand i => exact .inl ⟨hpc, i, rfl⟩
  | oneOperand make =>
    by_cases h1 : s.pc.toNat + 1 < 256
    · have hop1 : memRead s.mem (s.pc.toNat + 1) = .ok (op1At s) := memRead_inside s.mem h1
      exact .inl ⟨h1, make (op1At s), by rw [fetchOperands, hop1]⟩
    · have hend := memRead_at_end s.mem (addr := s.pc.toNat + 1) (by omega)
      exact .inr ⟨Nat.not_lt.mp h1, by rw [fetchOperands, hend]⟩
  | twoOperands make =>
    by_cases h1 : s.pc.toNat + 1 < 256
    · have hop1 : memRead s.mem (s.pc.toNat + 1) = .ok (op1At s) := memRead_inside s.mem h1
      by_cases h2 : s.pc.toNat + 2 < 256
      · have hop2 : memRead s.mem (s.pc.toNat + 2) = .ok (op2At s) := memRead_inside s.mem h2
        exact .inl ⟨h2, make (op1At s) (op2At s), by simp only [fetchOperands, hop1, hop2]⟩
      · have hend := memRead_at_end s.mem (addr := s.pc.toNat + 2) (by omega)
        exact .inr ⟨Nat.not_lt.mp h2, by simp only [fetchOperands, hop1, hend]⟩
    · have hend := memRead_at_end s.mem (addr := s.pc.toNat + 1) (by omega)
      exact .inr ⟨(Nat.not_lt.mp h1).trans (Nat.le_succ _), by rw [fetchOperands, hend]⟩

/-- All the fetch can answer: the fault of its first phase that fails, or an instruction. -/
theorem fetch_cases (s : State) :
    (256 ≤ s.pc.toNat ∧ fetch s = .error (.outOfBounds s.pc.toNat)) ∨
      (s.pc.toNat < 256 ∧ illegalOpcode (opcodeAt s) = true ∧
        fetch s = .error (.unsupportedOpcode (opcodeAt s))) ∨
      (s.pc.toNat < 256 ∧ illegalOpcode (opcodeAt s) = false ∧ 256 ≤ s.pc.toNat + (opcodeAt s).toNat / 64 ∧
        fetch s = .error (.outOfBounds 256)) ∨
      (illegalOpcode (opcodeAt s) = false ∧ s.pc.toNat + (opcodeAt s).toNat / 64 < 256 ∧ ∃ i, fetch s = .ok i) := by
  rcases Nat.lt_or_ge s.pc.toNat 256 with hpc | hpc
  · have hfetch := fetch_of_pc_inside hpc
    obtain ⟨form, hl, hd⟩ | ⟨hl, -⟩ := dispatch_cases (opcodeAt s)
    · have hlegal : illegalOpcode (opcodeAt s) = false := by
        rw [← Bool.not_eq_true, ← lookupOpcode_eq_none_iff, hl]
        nofun
      rw [hd] at hfetch
      rw [← operandCount_of_lookupOpcode hl]
      obtain ⟨hfits, i, hi⟩ | ⟨hpast, hf⟩ := fetchOperands_cases hpc form
      · exact .inr (.inr (.inr ⟨hlegal, hfits, i, hfetch.trans hi⟩))
      · exact .inr (.inr (.inl ⟨hpc, hlegal, hpast, hfetch.trans hf⟩))
    · have hillegal := (lookupOpcode_eq_none_iff _).mp hl
      exact .inr (.inl ⟨hpc, hillegal, (fetch_eq_unsupportedOpcode_iff hpc _).mpr ⟨hillegal, rfl⟩⟩)
  · exact .inl ⟨hpc, by rw [fetch, memRead_past s.mem hpc]⟩

/-- Operand bytes that would lie past the last cell raise OutOfBounds(256), whatever they would name. -/
theorem step_of_operand_past {s : State} (hrun : s.run = .running) (hpc : s.pc.toNat < 256)
    (hlegal : illegalOpcode (opcodeAt s) = false) (hpast : 256 ≤ s.pc.toNat + (opcodeAt s).toNat / 64) :
    step s = .next (takeFault (.outOfBounds 256) s) := by
  apply step_of_fetch_error hrun
  obtain ⟨h, -⟩ | ⟨-, h, -⟩ | ⟨-, -, -, hfetch⟩ | ⟨-, h, -⟩ := fetch_cases s
  · omega
  · exact absurd (hlegal.symm.trans h) Bool.false_ne_true
  · exact hfetch
  · omega

/-- RET has no operand bytes, so its opcode byte at `pc` is all the fetch needs (40_cycle R74). -/
theorem fetch_ret {s : State} (hpc : s.pc.toNat < 256) (hopcode : opcodeAt s = opcodeByte .ret) :
    fetch s = .ok .ret :=
  fetch_at hpc hopcode fun _ hk => absurd hk (Nat.not_lt_zero _)

/-- The two-byte and the three-byte opcodes are legal and count their one or two operand bytes. -/
theorem twoByteOpcodes_legal : ∀ ir ∈ twoByteOpcodes, illegalOpcode ir = false ∧ ir.toNat / 64 = 1 := by decide

theorem threeByteOpcodes_legal : ∀ ir ∈ threeByteOpcodes, illegalOpcode ir = false ∧ ir.toNat / 64 = 2 := by decide

/-- Settles O19: the fetch clauses are cases of `fetch_cases`, and HLT and RET have no operand to fetch. -/
theorem fetchPastMemoryFaults : Obligations.FetchPastMemoryFaults := by
  intro s hrun
  refine ⟨fun hpast => ?_, fun hpc hop => ?_, fun hpc hop => ?_, fun hpc hop => ?_, fun hpc hop => ?_⟩
  · refine step_of_fetch_error hrun ?_
    rw [fetch, memRead_past s.mem hpast]
  · obtain htwo | hthree := List.mem_append.mp hop
    · obtain ⟨hlegal, hcount⟩ := twoByteOpcodes_legal _ htwo
      exact step_of_operand_past hrun (by omega) hlegal (by omega)
    · obtain ⟨hlegal, hcount⟩ := threeByteOpcodes_legal _ hthree
      exact step_of_operand_past hrun (by omega) hlegal (by omega)
  · obtain ⟨hlegal, hcount⟩ := threeByteOpcodes_legal _ hop
    exact step_of_operand_past hrun (by omega) hlegal (by omega)
  · exact step_of_fetch hrun (fetch_hlt (hpc.trans_lt (by decide)) hop)
  · exact step_of_fetch hrun (fetch_ret (by omega) hop)

end Sys2Proof.Machine

/-! PROOFS. What an instruction answers, by its checks in their order (60_exceptions R142, R146): the fault of its first
bad register operand, the fault its handler raises, or its effect. -/

namespace Sys2Proof.Machine

open Sys2Proof.Claims

/-- The first register operand byte that names no register (40_cycle R75). -/
def firstBadRegister (i : Instr) : Option Byte := (registerOperands i).find? fun c => decide (7 < c.toNat)

/-- Well-formed instructions are those without a bad register operand. -/
theorem firstBadRegister_eq_none_iff (i : Instr) : firstBadRegister i = none ↔ i.wellFormed = true := by
  cases i <;> simp [firstBadRegister, registerOperands, Instr.wellFormed, isRegister, Nat.lt_succ_iff]

section
variable {a b c : Byte} {s : State}

/-- The register check of an only operand that is bad. -/
theorem orFault_regIndex_of_bad {go : Fin 8 → Answer} (h : [a].find? (fun c => decide (7 < c.toNat)) = some c) :
    orFault (regIndex a) s go = .next (takeFault (.invalidRegister c) s) := by
  obtain ⟨ha, -⟩ | ⟨ha, herr⟩ := regIndex_cases a
  · simp [Nat.le_of_lt_succ ha] at h
  · have hac : a = c := by simpa [Nat.lt_of_succ_le (Nat.not_lt.mp ha)] using h
    rw [herr, hac, orFault_error]

/-- The register checks of two operands of which one is bad: the first that is bad fails. -/
theorem orFault_regIndex_pair_of_bad {go : Fin 8 → Fin 8 → Answer}
    (h : [a, b].find? (fun c => decide (7 < c.toNat)) = some c) :
    orFault (regIndex a) s (fun i => orFault (regIndex b) s (go i)) =
      .next (takeFault (.invalidRegister c) s) := by
  obtain ⟨ha, hok⟩ | ⟨ha, -⟩ := regIndex_cases a
  · rw [List.find?_cons_of_neg (by simpa using Nat.le_of_lt_succ ha)] at h
    rw [hok, orFault_ok]
    exact orFault_regIndex_of_bad h
  · have hbad : 7 < a.toNat := Nat.lt_of_succ_le (Nat.not_lt.mp ha)
    rw [List.find?_cons_of_pos (by simpa using hbad)] at h
    exact orFault_regIndex_of_bad (by rw [List.find?_cons_of_pos (by simpa using hbad), h])

end

/-- A bad register operand fails its check, before anything else of the instruction. -/
theorem exec_of_badRegister {i : Instr} {b : Byte} (h : firstBadRegister i = some b) (s : State) :
    exec i s = .next (takeFault (.invalidRegister b) s) := by
  cases i
  case hlt | ret => cases h
  case ldi | prn | push | pop | call | jmp | jeq | jne => exact orFault_regIndex_of_bad h
  case add | mul | cmp => exact orFault_regIndex_pair_of_bad h

/-- Settles O20: `exec_of_badRegister`, since `faulted` is the model's taking of a fault. -/
theorem badRegisterIndexFaults : Obligations.BadRegisterIndexFaults :=
  fun _ s _ h => exec_of_badRegister h s

section
variable {s : State} {r slot : Byte} {f : FaultRecord} (hr : r.toNat < 8)

/-- POP to a register completes where the stack pointer can rise. -/
theorem exec_pop_of_slot (hslot : popSlot s.sp = .ok slot) :
    exec (.pop r) s =
      .next ({ s.setX ⟨r.toNat, hr⟩ (Memory.read s.mem s.sp.toNat) with sp := slot }.advance 1) := by
  simp only [exec, execPop, regIndex_ok hr, hslot, orFault_ok, memRead_byte]

/-- RET completes where the stack pointer can rise. -/
theorem exec_ret_of_slot (hslot : popSlot s.sp = .ok slot) :
    exec .ret s = .next ({ s with sp := slot }.jump (Memory.read s.mem s.sp.toNat)) := by
  simp only [exec, execRet, hslot, orFault_ok, memRead_byte]

theorem exec_jmp_of_register (s : State) : exec (.jmp r) s = .next (s.jump (s.getX ⟨r.toNat, hr⟩)) := by
  simp only [exec, execJmp, regIndex_ok hr, orFault_ok]

theorem exec_jeq_of_register (s : State) :
    exec (.jeq r) s = .next (branchIf (flagE s.fl) ⟨r.toNat, hr⟩ s) := by
  simp only [exec, execJeq, regIndex_ok hr, orFault_ok]

theorem exec_jne_of_register (s : State) :
    exec (.jne r) s = .next (branchIf (!flagE s.fl) ⟨r.toNat, hr⟩ s) := by
  simp only [exec, execJne, regIndex_ok hr, orFault_ok]

theorem exec_ret_of_no_slot (hslot : popSlot s.sp = .error f) : exec .ret s = .next (takeFault f s) := by
  simp only [exec, execRet, hslot, orFault_error]

include hr

theorem exec_push_of_no_slot (hslot : pushSlot s.sp = .error f) : exec (.push r) s = .next (takeFault f s) := by
  simp only [exec, execPush, regIndex_ok hr, hslot, orFault_ok, orFault_error]

theorem exec_call_of_no_slot (hslot : pushSlot s.sp = .error f) : exec (.call r) s = .next (takeFault f s) := by
  simp only [exec, execCall, regIndex_ok hr, hslot, orFault_ok, orFault_error]

theorem exec_call_of_no_returnAddress (hslot : pushSlot s.sp = .ok slot) (hret : returnAddress s.pc = .error f) :
    exec (.call r) s = .next (takeFault f s) := by
  simp only [exec, execCall, regIndex_ok hr, hslot, hret, orFault_ok, orFault_error]

theorem exec_pop_of_no_slot (hslot : popSlot s.sp = .error f) : exec (.pop r) s = .next (takeFault f s) := by
  simp only [exec, execPop, regIndex_ok hr, hslot, orFault_ok, orFault_error]

end

/-- Settles O21: each clause is a check that fails, the checks before it having passed. -/
theorem stackAndReturnAddressFaults : Obligations.StackAndReturnAddressFaults := by
  intro s r hr
  refine ⟨fun hsp => exec_push_of_no_slot hr (if_pos hsp), fun hsp => exec_call_of_no_slot hr (if_pos hsp),
    fun hsp => exec_pop_of_no_slot hr (if_pos hsp), fun hsp => exec_ret_of_no_slot (if_pos hsp), fun hsp hpc => ?_⟩
  have hslot : pushSlot s.sp = .ok (s.sp - 1#8) := if_neg hsp
  exact exec_call_of_no_returnAddress hr hslot (if_pos (by omega))

/-- The fault the handler's own checks raise, if any, in their order (42_stack R101, R102; 43_control R111, R112). -/
def handlerFault (s : State) : Instr → Option FaultRecord
  | .push _ => if s.sp = 0#8 then some (.outOfBounds (-1)) else none
  | .call _ =>
    if s.sp = 0#8 then some (.outOfBounds (-1))
    else if 255 < s.pc.toNat + 2 then some (.outOfBounds (s.pc.toNat + 2))
    else none
  | .pop _ => if s.sp = 255#8 then some (.outOfBounds 256) else none
  | .ret => if s.sp = 255#8 then some (.outOfBounds 256) else none
  | .hlt | .ldi _ _ | .prn _ | .jmp _ | .jeq _ | .jne _ | .add _ _ | .mul _ _ | .cmp _ _ => none

/-- The instruction takes the fault its handler raises, or none is raised and it has its effect. -/
def HandlerOutcome (i : Instr) (s : State) : Prop :=
  (∃ f, handlerFault s i = some f ∧ exec i s = .next (takeFault f s)) ∨
    (handlerFault s i = none ∧ ∃ t, exec i s = .next t ∧ Effect s t i)

/-- With valid register operands only the handler's own checks are left. -/
theorem handlerOutcome_of_wellFormed {i : Instr} (hwf : i.wellFormed = true) (s : State) : HandlerOutcome i s := by
  have one {r : Byte} (h : isRegister r = true) : r.toNat < 8 := isRegister_iff.mp h
  have two {a b : Byte} (h : (isRegister a && isRegister b) = true) : a.toNat < 8 ∧ b.toNat < 8 :=
    (Bool.and_eq_true_iff.mp h).imp one one
  cases i with
  | hlt => exact .inr ⟨rfl, _, rfl, rfl⟩
  | ldi r v => exact .inr ⟨rfl, _, exec_ldi_of_register (one hwf) v s, _, regIndex_ok (one hwf), rfl⟩
  | prn r => exact .inr ⟨rfl, _, exec_prn_of_register (one hwf) s, _, regIndex_ok (one hwf), rfl⟩
  | push r =>
    obtain ⟨hsp, herr⟩ | ⟨hsp, hslot, -⟩ := pushSlot_cases s.sp
    · exact .inl ⟨_, if_pos hsp, exec_push_of_no_slot (one hwf) herr⟩
    · exact .inr ⟨if_neg hsp, _, exec_push_of_slot (one hwf) hslot, _, _, regIndex_ok (one hwf), hslot, rfl⟩
  | pop r =>
    obtain ⟨hsp, herr⟩ | ⟨hsp, hslot, -⟩ := popSlot_cases s.sp
    · exact .inl ⟨_, if_pos hsp, exec_pop_of_no_slot (one hwf) herr⟩
    · exact .inr ⟨if_neg hsp, _, exec_pop_of_slot (one hwf) hslot, _, _, regIndex_ok (one hwf), hslot, rfl⟩
  | call r =>
    obtain ⟨hsp, herr⟩ | ⟨hsp, hslot, -⟩ := pushSlot_cases s.sp
    · exact .inl ⟨_, if_pos hsp, exec_call_of_no_slot (one hwf) herr⟩
    · obtain ⟨hpc, herr⟩ | ⟨hpc, hret⟩ := returnAddress_cases s.pc
      · exact .inl ⟨_, (if_neg hsp).trans (if_pos hpc), exec_call_of_no_returnAddress (one hwf) hslot herr⟩
      · exact .inr ⟨(if_neg hsp).trans (if_neg hpc.not_gt), _, exec_call_of_slot (one hwf) hslot hret, _, _, _,
          regIndex_ok (one hwf), hslot, hret, rfl⟩
  | ret =>
    obtain ⟨hsp, herr⟩ | ⟨hsp, hslot, -⟩ := popSlot_cases s.sp
    · exact .inl ⟨_, if_pos hsp, exec_ret_of_no_slot herr⟩
    · exact .inr ⟨if_neg hsp, _, exec_ret_of_slot hslot, _, hslot, rfl⟩
  | jmp r => exact .inr ⟨rfl, _, exec_jmp_of_register (one hwf) s, _, regIndex_ok (one hwf), rfl⟩
  | jeq r => exact .inr ⟨rfl, _, exec_jeq_of_register (one hwf) s, _, regIndex_ok (one hwf), rfl⟩
  | jne r => exact .inr ⟨rfl, _, exec_jne_of_register (one hwf) s, _, regIndex_ok (one hwf), rfl⟩
  | add a b =>
    obtain ⟨ha, hb⟩ := two hwf
    refine .inr ⟨rfl, _, exec_add_of_registers ha hb s, _, _, regIndex_ok ha, regIndex_ok hb, ?_⟩
    rw [aluAdd_eq_add]
  | mul a b =>
    obtain ⟨ha, hb⟩ := two hwf
    refine .inr ⟨rfl, _, exec_mul_of_registers ha hb s, _, _, regIndex_ok ha, regIndex_ok hb, ?_⟩
    rw [aluMul_eq_mul]
  | cmp a b =>
    obtain ⟨ha, hb⟩ := two hwf
    exact .inr ⟨rfl, _, exec_cmp_of_registers ha hb s, _, _, regIndex_ok ha, regIndex_ok hb, rfl⟩

/-- The fault an instruction takes, if any: a bad register operand comes before the handler's own checks
(60_exceptions R146). -/
def execFault (i : Instr) (s : State) : Option FaultRecord :=
  ((firstBadRegister i).map .invalidRegister).or (handlerFault s i)

/-- What each instruction answers from each state: the fault it takes, or its effect when there is none. -/
theorem exec_outcome {i : Instr} {s t : State} (h : exec i s = .next t) :
    (∃ f, execFault i s = some f ∧ t = takeFault f s) ∨ (execFault i s = none ∧ Effect s t i) := by
  cases hbad : firstBadRegister i with
  | some b =>
    cases (exec_of_badRegister hbad s).symm.trans h
    exact .inl ⟨.invalidRegister b, by simp [execFault, hbad], rfl⟩
  | none =>
    have hexecFault : execFault i s = handlerFault s i := by simp [execFault, hbad]
    rw [hexecFault]
    obtain ⟨f, hf, hexec⟩ | ⟨hnone, u, hexec, heffect⟩ :=
      handlerOutcome_of_wellFormed ((firstBadRegister_eq_none_iff i).mp hbad) s
    · cases hexec.symm.trans h
      exact .inl ⟨f, hf, rfl⟩
    · cases hexec.symm.trans h
      exact .inr ⟨hnone, heffect⟩

/-- With no check of the handler to fail, an instruction faults exactly when it is not well formed. -/
theorem exec_outcome_of_handlerFault_eq_none {i : Instr} {s t : State} (hnone : handlerFault s i = none)
    (h : exec i s = .next t) :
    (i.wellFormed = true ∧ Effect s t i) ∨ (i.wellFormed = false ∧ ∃ f, t = takeFault f s) := by
  obtain ⟨f, hf, rfl⟩ | ⟨hf, heffect⟩ := exec_outcome h
  · refine .inr ⟨?_, f, rfl⟩
    rw [← Bool.not_eq_true, ← firstBadRegister_eq_none_iff]
    intro hgood
    simp [execFault, hgood, hnone] at hf
  · refine .inl ⟨(firstBadRegister_eq_none_iff i).mp ?_, heffect⟩
    simpa [execFault, hnone] using hf

/-- Settles O23: a step is an effect, whose `run` is HALTED or the RUNNING it began with, or a fault taken. -/
theorem faultsArePrecise : Obligations.FaultsArePrecise := by
  intro s t hstep hfaulted
  obtain ⟨hrun, ⟨i, -, heffect⟩ | ⟨f, rfl⟩⟩ := step_cases hstep
  · obtain ⟨-, ⟨-, hhalted⟩ | ⟨-, hkept⟩⟩ := Effect_run heffect
    · cases hhalted.symm.trans hfaulted
    · cases (hkept.trans hrun).symm.trans hfaulted
  · exact ⟨f, rfl⟩

end Sys2Proof.Machine

/-! PROOFS. Each instruction where its checks pass (41_halt_load_print, 42_stack, 43_control, 44_alu), and the round
trips of the stack. -/

namespace Sys2Proof.Machine

open Sys2Proof.Claims

/-- Settles O33: `exec_ldi_of_register`. -/
theorem ldiWritesTheImmediate : Obligations.LdiWritesTheImmediate :=
  fun s _ v h => exec_ldi_of_register h v s

/-- Settles O34: `exec_prn_of_register`. -/
theorem prnEmitsTheRegister : Obligations.PrnEmitsTheRegister :=
  fun s _ h => exec_prn_of_register h s

theorem pushSlot_of_ne {sp : Byte} (h : sp ≠ 0#8) : pushSlot sp = .ok (sp - 1#8) := if_neg h

theorem popSlot_of_ne {sp : Byte} (h : sp ≠ 255#8) : popSlot sp = .ok (sp + 1#8) := if_neg h

theorem toNat_sub_one {sp : Byte} (h : sp ≠ 0#8) : (sp - 1#8).toNat = sp.toNat - 1 := by bv_omega

theorem returnAddress_of_le {pc : PcWord} (h : pc.toNat ≤ 253) :
    returnAddress pc = .ok (BitVec.ofNat 8 (pc.toNat + 2)) := if_neg (by omega)

/-- What every address reads as after a push's store. -/
theorem read_write_pushSlot {m : Memory} (hm : Memory.wf m = true) {sp : Byte} (hsp : sp ≠ 0#8) (v : Byte) (a : Nat) :
    Memory.read (Memory.write m (sp - 1#8).toNat v) a = if a = sp.toNat - 1 then v else Memory.read m a := by
  rw [toNat_sub_one hsp]
  exact Memory.read_write_from hm

/-- Settles O36: PUSH completes where there is a slot, and stores there. -/
theorem pushStoresBelowTheStackPointer : Obligations.PushStoresBelowTheStackPointer := by
  rintro s r hr ⟨hm, -⟩ hsp
  exact ⟨_, exec_push_of_slot hr (pushSlot_of_ne hsp), read_write_pushSlot hm hsp _⟩

/-- Settles O37: POP completes where `sp` can rise. -/
theorem popLoadsFromTheStackPointer : Obligations.PopLoadsFromTheStackPointer :=
  fun _ _ hr hsp => exec_pop_of_slot hr (popSlot_of_ne hsp)

/-- Settles O38: CALL completes where there is a slot and the return address is a byte, and stores that byte. -/
theorem callPushesTheReturnAddress : Obligations.CallPushesTheReturnAddress := by
  rintro s r hr ⟨hm, -⟩ hsp hpc
  exact ⟨_, _, exec_call_of_slot hr (pushSlot_of_ne hsp) (returnAddress_of_le hpc), State.jump_pc_toNat s _,
    read_write_pushSlot hm hsp _⟩

/-- Settles O39: RET completes where `sp` can rise. -/
theorem retGoesToThePoppedByte : Obligations.RetGoesToThePoppedByte :=
  fun s hsp => ⟨_, exec_ret_of_slot (popSlot_of_ne hsp), State.jump_pc_toNat s _⟩

/-- Settles O40: the target is the register's value widened; JEQ and JNE go to it by the flag. -/
theorem jumpsGoToTheRegister : Obligations.JumpsGoToTheRegister := by
  intro s r hr
  refine ⟨_, State.jump_pc_toNat s (s.getX ⟨r.toNat, hr⟩), exec_jmp_of_register hr s, ?_, ?_⟩
  · rw [exec_jeq_of_register hr, flagE]
    cases s.fl.getLsbD 0 <;> rfl
  · rw [exec_jne_of_register hr, flagE]
    cases s.fl.getLsbD 0 <;> rfl

/-- Settles O43: CMP writes the flag by `setFlagE`, which keeps bits 7 to 1 and a legal `fl` legal. -/
theorem cmpWritesBitZeroOnly : Obligations.CmpWritesBitZeroOnly := by
  intro s a b ha hb
  refine ⟨_, exec_cmp_of_registers ha hb s, fun k => setFlagE_other s.fl _, fun hlegal => ?_⟩
  rw [setFlagE_legal hlegal]
  exact if_congr decide_eq_true_iff rfl rfl

/-- A pop undoes a push's move of `sp`. -/
theorem popSlot_sub_one {sp : Byte} (h : sp ≠ 0#8) : popSlot (sp - 1#8) = .ok sp := by
  rw [popSlot_of_ne (by bv_omega), BitVec.sub_add_cancel]

/-- Settles O48: PUSH stores the value at the slot; a POP that finds `sp` there and the same byte loads it. -/
theorem pushThenPopMovesTheValue : Obligations.PushThenPopMovesTheValue := by
  rintro s a b ha hb ⟨hm, -⟩ hsp
  refine ⟨_, exec_push_of_slot ha (pushSlot_of_ne hsp), fun t' hsp' hbyte => ?_⟩
  have hslot : popSlot t'.sp = .ok s.sp := by
    rw [hsp']
    exact popSlot_sub_one hsp
  have hread : Memory.read t'.mem t'.sp.toNat = s.getX ⟨a.toNat, ha⟩ := by
    rw [hsp', hbyte]
    exact Memory.read_write_same hm _ _
  refine ⟨_, exec_pop_of_slot hb hslot, ?_, rfl⟩
  rw [hread]
  rfl

/-- Settles O49: CALL stores the address after its operand; a RET that finds `sp` there and the same byte goes to it. -/
theorem callThenRetReturns : Obligations.CallThenRetReturns := by
  rintro s r hr ⟨hm, -⟩ hsp hpc
  refine ⟨_, exec_call_of_slot hr (pushSlot_of_ne hsp) (returnAddress_of_le hpc), fun t' hsp' hbyte => ?_⟩
  have hslot : popSlot t'.sp = .ok s.sp := by
    rw [hsp']
    exact popSlot_sub_one hsp
  have hread : Memory.read t'.mem t'.sp.toNat = BitVec.ofNat 8 (s.pc.toNat + 2) := by
    rw [hsp', hbyte]
    exact Memory.read_write_same hm _ _
  refine ⟨_, exec_ret_of_slot hslot, ?_, rfl⟩
  rw [hread, State.jump_pc_toNat, BitVec.toNat_ofNat]
  omega

end Sys2Proof.Machine

/-! PROOFS. What an effect does to each component of the state (10_state): registers, flags, stack pointer, memory and
`pc`. -/

namespace Sys2Proof.Machine

open Sys2Proof.Claims

/-- A register operand that passes the check is the register's number. -/
theorem val_of_regIndex {r : Byte} {k : Fin 8} (h : regIndex r = .ok k) : k.val = r.toNat := by
  obtain ⟨hr, hok⟩ | ⟨-, herr⟩ := regIndex_cases r
  · cases hok.symm.trans h
    rfl
  · cases herr.symm.trans h

/-- Setting the register an operand names leaves every other register alone. -/
theorem getX_setX_of_ne_operand {r : Byte} {i k : Fin 8} (hi : regIndex r = .ok i) (hk : k.val ≠ r.toNat) (s : State)
    (v : Byte) : (s.setX i v).getX k = s.getX k :=
  State.getX_setX_other s i k v fun hki => hk (hki ▸ val_of_regIndex hi)

/-- An effect writes no register but the one in the "writes" column of 10_state R11. -/
theorem Effect_getX {i : Instr} {s t : State} (h : Effect s t i) (k : Fin 8)
    (hk : k.val ∉ (registersWritten i).map BitVec.toNat) : t.getX k = s.getX k := by
  have hne {r : Byte} (hmem : k.val ∉ [r].map BitVec.toNat) : k.val ≠ r.toNat := fun he => hmem (by simp [he])
  cases i with
  | hlt => cases h; rfl
  | prn r | jmp r => obtain ⟨j, -, rfl⟩ := h; rfl
  | push r => obtain ⟨j, slot, -, -, rfl⟩ := h; rfl
  | call r => obtain ⟨j, slot, ret, -, -, -, rfl⟩ := h; rfl
  | ret => obtain ⟨slot, -, rfl⟩ := h; rfl
  | jeq r | jne r => obtain ⟨j, -, rfl⟩ := h; rw [branchIf_frame]; rfl
  | cmp a b => obtain ⟨j, l, -, -, rfl⟩ := h; rfl
  | ldi r v => obtain ⟨j, hj, rfl⟩ := h; exact getX_setX_of_ne_operand hj (hne hk) s _
  | pop r => obtain ⟨j, slot, hj, -, rfl⟩ := h; exact getX_setX_of_ne_operand hj (hne hk) s _
  | add a b | mul a b => obtain ⟨j, l, hj, -, rfl⟩ := h; exact getX_setX_of_ne_operand hj (hne hk) s _

/-- An effect that writes no register leaves the register file alone. -/
theorem Effect_x {i : Instr} {s t : State} (h : Effect s t i) (hi : registersWritten i = []) : t.x = s.x :=
  Vector.ext fun k hk => Effect_getX h ⟨k, hk⟩ (by simp [hi])

/-- Only CMP's effect changes the flags, by writing E. -/
theorem Effect_fl {i : Instr} {s t : State} (h : Effect s t i) :
    t.fl = s.fl ∨ ∃ a b e, i = .cmp a b ∧ t.fl = setFlagE s.fl e := by
  cases i with
  | cmp a b => obtain ⟨j, l, -, -, rfl⟩ := h; exact .inr ⟨a, b, _, rfl, rfl⟩
  | hlt => cases h; exact .inl rfl
  | ldi r v | prn r | jmp r => obtain ⟨j, -, rfl⟩ := h; exact .inl rfl
  | push r | pop r => obtain ⟨j, slot, -, -, rfl⟩ := h; exact .inl rfl
  | call r => obtain ⟨j, slot, ret, -, -, -, rfl⟩ := h; exact .inl rfl
  | ret => obtain ⟨slot, -, rfl⟩ := h; exact .inl rfl
  | jeq r | jne r => obtain ⟨j, -, rfl⟩ := h; rw [branchIf_frame]; exact .inl rfl
  | add a b | mul a b => obtain ⟨j, l, -, -, rfl⟩ := h; exact .inl rfl

/-- No effect changes bits 7 to 1 of the flags. -/
theorem Effect_fl_high {i : Instr} {s t : State} (h : Effect s t i) {k : Nat} (hk : 1 ≤ k) :
    t.fl.getLsbD k = s.fl.getLsbD k := by
  obtain hfl | ⟨a, b, e, -, hfl⟩ := Effect_fl h <;> rw [hfl]
  exact setFlagE_other s.fl e hk

/-- How far each instruction's effect moves the stack pointer (10_state R15). -/
def spMove : Instr → Int
  | .push _ | .call _ => -1
  | .pop _ | .ret => 1
  | .hlt | .ldi _ _ | .prn _ | .jmp _ | .jeq _ | .jne _ | .add _ _ | .mul _ _ | .cmp _ _ => 0

theorem toNat_of_pushSlot {sp slot : Byte} (h : pushSlot sp = .ok slot) : (slot.toNat : Int) = sp.toNat + -1 := by
  obtain ⟨-, herr⟩ | ⟨-, hok, hval, hpos⟩ := pushSlot_cases sp
  · cases herr.symm.trans h
  · cases hok.symm.trans h
    omega

theorem toNat_of_popSlot {sp slot : Byte} (h : popSlot sp = .ok slot) : (slot.toNat : Int) = sp.toNat + 1 := by
  obtain ⟨-, herr⟩ | ⟨-, hok, hval⟩ := popSlot_cases sp
  · cases herr.symm.trans h
  · cases hok.symm.trans h
    omega

/-- An effect moves the stack pointer by its instruction's move, as an integer. -/
theorem Effect_sp {i : Instr} {s t : State} (h : Effect s t i) : (t.sp.toNat : Int) = s.sp.toNat + spMove i := by
  cases i with
  | push r => obtain ⟨j, slot, -, hslot, rfl⟩ := h; exact toNat_of_pushSlot hslot
  | call r => obtain ⟨j, slot, ret, -, hslot, -, rfl⟩ := h; exact toNat_of_pushSlot hslot
  | pop r => obtain ⟨j, slot, -, hslot, rfl⟩ := h; exact toNat_of_popSlot hslot
  | ret => obtain ⟨slot, hslot, rfl⟩ := h; exact toNat_of_popSlot hslot
  | hlt => cases h; exact (Int.add_zero _).symm
  | ldi r v | prn r | jmp r => obtain ⟨j, -, rfl⟩ := h; exact (Int.add_zero _).symm
  | jeq r | jne r => obtain ⟨j, -, rfl⟩ := h; rw [branchIf_frame]; exact (Int.add_zero _).symm
  | add a b | mul a b | cmp a b => obtain ⟨j, l, -, -, rfl⟩ := h; exact (Int.add_zero _).symm

/-- Only PUSH's and CALL's effects store, one byte at the push's slot, the new stack pointer (20_memory R33). -/
theorem Effect_mem {i : Instr} {s t : State} (h : Effect s t i) :
    t.mem = s.mem ∨
      ((∃ r, i = .push r ∨ i = .call r) ∧ pushSlot s.sp = .ok t.sp ∧ ∃ v, t.mem = Memory.write s.mem t.sp.toNat v) := by
  cases i with
  | push r => obtain ⟨j, slot, -, hslot, rfl⟩ := h; exact .inr ⟨⟨r, .inl rfl⟩, hslot, _, rfl⟩
  | call r => obtain ⟨j, slot, ret, -, hslot, -, rfl⟩ := h; exact .inr ⟨⟨r, .inr rfl⟩, hslot, _, rfl⟩
  | hlt => cases h; exact .inl rfl
  | ldi r v | prn r | jmp r => obtain ⟨j, -, rfl⟩ := h; exact .inl rfl
  | pop r => obtain ⟨j, slot, -, -, rfl⟩ := h; exact .inl rfl
  | ret => obtain ⟨slot, -, rfl⟩ := h; exact .inl rfl
  | jeq r | jne r => obtain ⟨j, -, rfl⟩ := h; rw [branchIf_frame]; exact .inl rfl
  | add a b | mul a b | cmp a b => obtain ⟨j, l, -, -, rfl⟩ := h; exact .inl rfl

theorem State.advance_pc_toNat {s : State} {n : Nat} (h : s.pc.toNat + n < 256) :
    (s.advance n).pc.toNat = s.pc.toNat + n + 1 := by
  rw [State.advance_pc, BitVec.toNat_add, BitVec.toNat_ofNat]
  omega

/-- The new `pc` of an effect whose instruction lies at `pc` inside memory (40_cycle R76). -/
def nextPc (s : State) : Instr → Nat
  | .call r | .jmp r => (xAt s r).toNat
  | .ret => (Memory.read s.mem s.sp.toNat).toNat
  | .jeq r => if flagE s.fl = true then (xAt s r).toNat else s.pc.toNat + 2
  | .jne r => if flagE s.fl = false then (xAt s r).toNat else s.pc.toNat + 2
  | .hlt => s.pc.toNat + 1
  | .prn _ | .push _ | .pop _ => s.pc.toNat + 2
  | .ldi _ _ | .add _ _ | .mul _ _ | .cmp _ _ => s.pc.toNat + 3

/-- A jump through a register goes to the value its operand names. -/
theorem jump_getX_toNat_eq_xAt {r : Byte} {k : Fin 8} {s : State} (hk : regIndex r = .ok k) (u : State) :
    (u.jump (s.getX k)).pc.toNat = (xAt s r).toNat := by
  rw [State.jump_pc_toNat, xAt_of_regIndex hk]

/-- A conditional branch goes to its register's value or past its operand. -/
theorem branchIf_pc_toNat {r : Byte} {k : Fin 8} {s : State} (hk : regIndex r = .ok k) (hpc : s.pc.toNat + 1 < 256)
    (taken : Bool) :
    (branchIf taken k s).pc.toNat = if taken = true then (xAt s r).toNat else s.pc.toNat + 2 := by
  obtain ⟨rfl, hjump⟩ | ⟨rfl, hadvance⟩ := branchIf_cases taken k s
  · rw [hjump, jump_getX_toNat_eq_xAt hk, if_pos rfl]
  · rw [hadvance, State.advance_pc_toNat hpc, if_neg Bool.false_ne_true]

/-- The `pc` an effect leads to: no advance wraps, since the instruction lies inside memory. -/
theorem Effect_pc {i : Instr} {s t : State} (h : Effect s t i) (hpc : s.pc.toNat + (operandBytes i).length < 256) :
    t.pc.toNat = nextPc s i := by
  cases i with
  | call r => obtain ⟨k, slot, ret, hk, -, -, rfl⟩ := h; exact jump_getX_toNat_eq_xAt hk _
  | jmp r => obtain ⟨k, hk, rfl⟩ := h; exact jump_getX_toNat_eq_xAt hk _
  | ret => obtain ⟨slot, -, rfl⟩ := h; exact State.jump_pc_toNat _ _
  | jeq r => obtain ⟨k, hk, rfl⟩ := h; exact branchIf_pc_toNat hk hpc _
  | jne r =>
    obtain ⟨k, hk, rfl⟩ := h
    exact (branchIf_pc_toNat hk hpc _).trans (if_congr (iff_of_eq (Bool.not_eq_true' _)) rfl rfl)
  | hlt => cases h; exact State.advance_pc_toNat hpc
  | prn r => obtain ⟨k, -, rfl⟩ := h; exact State.advance_pc_toNat hpc
  | push r | pop r => obtain ⟨k, slot, -, -, rfl⟩ := h; exact State.advance_pc_toNat hpc
  | ldi r v => obtain ⟨k, -, rfl⟩ := h; exact State.advance_pc_toNat hpc
  | add a b | mul a b | cmp a b => obtain ⟨k, l, -, -, rfl⟩ := h; exact State.advance_pc_toNat hpc

/-- The new `pc` is an address of memory, or 256 past an instruction that ends in the last cell. -/
theorem nextPc_le {i : Instr} {s : State} (hpc : s.pc.toNat + (operandBytes i).length < 256) : nextPc s i ≤ 256 := by
  have hbyte (v : Byte) : v.toNat ≤ 256 := v.isLt.le
  cases i with
  | call r | jmp r | ret => exact hbyte _
  | jeq r | jne r =>
    rw [nextPc]
    split
    · exact hbyte _
    · exact hpc
  | hlt | prn r | push r | pop r | ldi r v | add a b | mul a b | cmp a b => exact hpc

end Sys2Proof.Machine

/-! PROOFS. What every step keeps (10_state R27, 20_memory R33, 40_cycle R76): each claim is about the effect of the
instruction fetched, and a fault taken changes only `run` and the fault record. -/

namespace Sys2Proof.Machine

open Sys2Proof.Claims

/-- An effect keeps the state invariants: its instruction lies inside memory, its store is a cell's, its flag E. -/
theorem Effect_keeps_wf {i : Instr} {s t : State} (hwf : s.wf) (hrun : s.run = .running)
    (hpc : s.pc.toNat + (operandBytes i).length < 256) (h : Effect s t i) : t.wf := by
  obtain ⟨hmem, -, hfl, hfault⟩ := hwf
  refine ⟨?_, ?_, ?_, ?_⟩
  · obtain hkept | ⟨-, -, v, hstore⟩ := Effect_mem h
    · rwa [hkept]
    · rw [hstore]
      exact Memory.write_keeps_wf hmem t.sp.isLt v
  · rw [Effect_pc h hpc]
    exact nextPc_le hpc
  · obtain hkept | ⟨a, b, e, -, hset⟩ := Effect_fl h
    · rwa [hkept]
    · rw [hset, setFlagE_legal hfl]
      cases e
      · exact .inl rfl
      · exact .inr rfl
  · obtain ⟨hfaultKept, hhalted⟩ := Effect_run h
    have hnotFaulted : t.run ≠ .faulted := by
      obtain ⟨-, hhalted⟩ | ⟨-, hkept⟩ := hhalted
      · simp [hhalted]
      · simp [hkept, hrun]
    simpa [hfaultKept, hnotFaulted, hrun] using hfault

/-- Taking a fault keeps the state invariants. -/
theorem takeFault_keeps_wf {s : State} (hwf : s.wf) (f : FaultRecord) : (takeFault f s).wf := by
  obtain ⟨hmem, hpc, hfl, -⟩ := hwf
  exact ⟨hmem, hpc, hfl, by simp⟩

/-- Settles O15: a step is the effect of an instruction fetched inside memory or a fault taken, and both keep the
invariants. -/
theorem everyStepKeepsTheInvariants : Obligations.EveryStepKeepsTheInvariants := by
  intro s t hwf hstep
  obtain ⟨hrun, ⟨i, hfetch, heffect⟩ | ⟨f, rfl⟩⟩ := step_cases hstep
  · exact Effect_keeps_wf hwf hrun (inside_of_fetch hfetch) heffect
  · exact takeFault_keeps_wf hwf f

/-- Settles O14: the reset state by its fields, and a loaded state differs from it in a memory stored canonically. -/
theorem loadedStatesSatisfyTheInvariants : Obligations.LoadedStatesSatisfyTheInvariants := by
  have hreset : State.reset.wf := by decide
  refine ⟨hreset, fun program t hload => ?_⟩
  obtain ⟨-, rfl⟩ := State.load_next.mp hload
  obtain ⟨-, hrest⟩ := hreset
  exact ⟨storeBytes_keeps_wf reset_mem_wf 0 program, hrest⟩

/-- The claim's table of the new `pc` is `nextPc` of the instruction fetched. -/
theorem expectedPc_of_fetch {s : State} {i : Instr} (h : fetch s = .ok i) : expectedPc s = nextPc s i := by
  have hopcode := opcodeAt_of_fetch h
  have hop1 {r : Byte} {rest : List Byte} (hi : operandBytes i = r :: rest) := op1At_of_fetch h hi
  cases i with
  | call r | jmp r | jeq r | jne r =>
    simp [expectedPc, hopcode, opcodeByte, opcodeFields, hop1 rfl, nextPc, flagE]
  | hlt | ret | ldi r v | prn r | push r | pop r | add a b | mul a b | cmp a b =>
    simp [expectedPc, hopcode, opcodeByte, opcodeFields, nextPc]

/-- Settles O9: `Effect_pc`, read through `expectedPc_of_fetch`. -/
theorem pcAfterEveryInstruction : Obligations.PcAfterEveryInstruction := by
  intro s t _ hstep hcompletes
  obtain ⟨-, ⟨i, hfetch, heffect⟩ | ⟨f, rfl⟩⟩ := step_cases hstep
  · rw [expectedPc_of_fetch hfetch]
    exact Effect_pc heffect (inside_of_fetch hfetch)
  · exact absurd rfl hcompletes

/-- Settles O11: only HLT's effect halts, and 0x01 at `pc` is fetched as HLT, which does. -/
theorem onlyHltHalts : Obligations.OnlyHltHalts := by
  intro s t hstep
  obtain ⟨hrun, hcases⟩ := step_cases hstep
  constructor
  · intro hhalted
    obtain ⟨i, hfetch, heffect⟩ | ⟨f, rfl⟩ := hcases
    · obtain ⟨-, ⟨rfl, -⟩ | ⟨-, hkept⟩⟩ := Effect_run heffect
      · exact ⟨Nat.le_of_lt_succ (inside_of_fetch hfetch), opcodeAt_of_fetch hfetch⟩
      · cases hhalted.symm.trans (hkept.trans hrun)
    · cases hhalted
  · rintro ⟨hpc, hopcode⟩
    obtain ⟨-, hhlt⟩ := hltAdvancesThenHalts s
    cases (hhlt hrun hpc hopcode).symm.trans hstep
    rfl

/-- An instruction's move of the stack pointer is told by its opcode byte. -/
theorem spMove_eq (i : Instr) : spMove i =
    if opcodeByte i ∈ [0x45#8, 0x50#8] then -1 else if opcodeByte i ∈ [0x46#8, 0x11#8] then 1 else 0 := by
  cases i <;> rfl

/-- Settles O30: the move of the instruction fetched, which its opcode byte names. -/
theorem stackPointerMovesByOne : Obligations.StackPointerMovesByOne := by
  intro s t hstep
  obtain ⟨hrun, ⟨i, hfetch, heffect⟩ | ⟨f, rfl⟩⟩ := step_cases hstep
  · refine ⟨fun hfaulted => ?_, fun _ => ?_⟩
    · obtain ⟨f, rfl⟩ := faultsArePrecise s t hstep hfaulted
      rfl
    · rw [opcodeAt_of_fetch hfetch, ← spMove_eq]
      exact Effect_sp heffect
  · exact ⟨fun _ => rfl, fun hcompletes => absurd rfl hcompletes⟩

/-- Settles O31: only CMP's effect changes the flags, and `setFlagE` keeps bits 7 to 1. -/
theorem onlyCmpWritesTheFlag : Obligations.OnlyCmpWritesTheFlag := by
  intro s t hstep
  obtain ⟨-, ⟨i, hfetch, heffect⟩ | ⟨f, rfl⟩⟩ := step_cases hstep
  · refine ⟨?_, fun k hk => Effect_fl_high heffect hk⟩
    rintro (hopcode | hfaulted)
    · obtain hkept | ⟨a, b, e, rfl, -⟩ := Effect_fl heffect
      · exact hkept
      · exact absurd (opcodeAt_of_fetch hfetch) hopcode
    · obtain ⟨f, rfl⟩ := faultsArePrecise s t hstep hfaulted
      rfl
  · exact ⟨fun _ => rfl, fun _ _ => rfl⟩

/-- An effect changes what an address reads only by PUSH's or CALL's store there. -/
theorem Effect_read {i : Instr} {s t : State} (hm : Memory.wf s.mem = true) (h : Effect s t i) {a : Nat}
    (ha : Memory.read t.mem a ≠ Memory.read s.mem a) :
    (∃ r, i = .push r ∨ i = .call r) ∧ pushSlot s.sp = .ok t.sp ∧ a = t.sp.toNat := by
  obtain hkept | ⟨hi, hslot, v, hstore⟩ := Effect_mem h
  · exact absurd (by rw [hkept]) ha
  · refine ⟨hi, hslot, ?_⟩
    by_contra hne
    exact ha (by rw [hstore, Memory.read_write_other hm hne])

/-- Settles O27: `Effect_read` for the instruction fetched; the slot is one below `sp`. -/
theorem onlyPushAndCallStore : Obligations.OnlyPushAndCallStore := by
  rintro s t ⟨hm, -⟩ hstep a ha
  obtain ⟨-, ⟨i, hfetch, heffect⟩ | ⟨f, rfl⟩⟩ := step_cases hstep
  · obtain ⟨⟨r, hi⟩, hslot, rfl⟩ := Effect_read hm heffect ha
    have hsp := toNat_of_pushSlot hslot
    refine ⟨?_, by omega⟩
    rw [opcodeAt_of_fetch hfetch]
    obtain rfl | rfl := hi
    · exact .inl rfl
    · exact .inr rfl
  · exact absurd rfl ha

end Sys2Proof.Machine

/-! PROOFS. Which fault a step raises (60_exceptions R142, R146): the claim's table against the phases of the step. -/

namespace Sys2Proof.Machine

open Sys2Proof.Claims

theorem illegalOpcode_opcodeByte (i : Instr) : illegalOpcode (opcodeByte i) = false := by
  cases i <;> rfl

/-- The top two bits of an instruction's opcode byte count its operand bytes. -/
theorem opcodeByte_div_64 (i : Instr) : (opcodeByte i).toNat / 64 = (operandBytes i).length := by
  have hlength : (operandBytes i).length + 1 = 1 + (opcodeByte i).toNat / 64 := i.length_eq_opcodeByte
  omega

/-- A CALL fetched inside memory has no return address only at 254, where it would be 256. -/
theorem returnAddressFault_eq {pc : PcWord} (hpc : pc.toNat + 1 < 256) :
    (if pc.toNat = 254 then some (FaultRecord.outOfBounds 256) else none) =
      if 255 < pc.toNat + 2 then some (.outOfBounds (pc.toNat + 2)) else none := by
  by_cases h : pc.toNat = 254
  · simp [h]
  · rw [if_neg h, if_neg (by omega)]

/-- Of an instruction fetched, the table says what its register operands and its handler raise. -/
theorem expectedFault_of_fetch {s : State} {i : Instr} (h : fetch s = .ok i) : expectedFault s = execFault i s := by
  have hpc := inside_of_fetch h
  have hop1 {r : Byte} {rest : List Byte} (hi : operandBytes i = r :: rest) := op1At_of_fetch h hi
  have hop2 {a b : Byte} {rest : List Byte} (hi : operandBytes i = a :: b :: rest) := op2At_of_fetch h hi
  unfold expectedFault execFault firstBadRegister
  dsimp only
  rw [opcodeAt_of_fetch h, illegalOpcode_opcodeByte, opcodeByte_div_64, if_neg (by omega), if_neg Bool.false_ne_true,
    if_neg (by omega)]
  cases i with
  | hlt | ret => simp [operandBytes, opcodeByte, registerOperands, handlerFault]
  | ldi r v | prn r | jmp r | jeq r | jne r | push r | pop r =>
    rw [hop1 rfl]
    by_cases hr : 7 < r.toNat <;> simp [operandBytes, opcodeByte, registerOperands, handlerFault, hr]
  | call r =>
    rw [hop1 rfl]
    by_cases hr : 7 < r.toNat <;>
      simp [operandBytes, opcodeByte, registerOperands, handlerFault, hr, returnAddressFault_eq hpc]
  | add a b | mul a b | cmp a b =>
    rw [hop1 rfl, hop2 rfl]
    by_cases ha : 7 < a.toNat <;> by_cases hb : 7 < b.toNat <;>
      simp [operandBytes, opcodeByte, registerOperands, handlerFault, ha, hb]

/-- The table of a fetch that fails, phase by phase. -/
theorem expectedFault_of_fetch_error {s : State} {f : FaultRecord} (hle : s.pc.toNat ≤ 256)
    (h : fetch s = .error f) : expectedFault s = some f := by
  unfold expectedFault
  obtain ⟨hpc, hf⟩ | ⟨hpc, hillegal, hf⟩ | ⟨hpc, hlegal, hpast, hf⟩ | ⟨-, -, i, hi⟩ := fetch_cases s
  · cases hf.symm.trans h
    have hend : s.pc.toNat = 256 := by omega
    simp [hend]
  · cases hf.symm.trans h
    rw [if_neg (by omega), if_pos hillegal]
  · cases hf.symm.trans h
    rw [if_neg (by omega), if_neg (by simp [hlegal]), if_pos (by omega)]
  · cases hi.symm.trans h

/-- A step takes the table's fault, or is an effect when the table has none. -/
theorem step_outcome {s t : State} (hle : s.pc.toNat ≤ 256) (h : step s = .next t) :
    (∃ f, expectedFault s = some f ∧ t = takeFault f s) ∨ (expectedFault s = none ∧ ∃ i, Effect s t i) := by
  obtain ⟨-, ⟨i, hfetch, hexec⟩ | ⟨f, hfetch, rfl⟩⟩ := step_next.mp h
  · rw [expectedFault_of_fetch hfetch]
    exact (exec_outcome hexec).imp_right fun ⟨hnone, heffect⟩ => ⟨hnone, i, heffect⟩
  · exact .inl ⟨f, expectedFault_of_fetch_error hle hfetch, rfl⟩

/-- Settles O22: `step_outcome`; an effect leaves the empty fault record of a RUNNING state and does not end FAULTED. -/
theorem faultsFollowTheCausesAndPriority : Obligations.FaultsFollowTheCausesAndPriority := by
  rintro s t ⟨-, hle, -, hfault⟩ hrun hstep
  obtain ⟨f, hexpected, rfl⟩ | ⟨hexpected, i, heffect⟩ := step_outcome hle hstep
  · simp [hexpected]
  · have hempty : s.fault = none := by simpa [hrun] using hfault
    obtain ⟨hkept, ⟨-, hhalted⟩ | ⟨-, hrunKept⟩⟩ := Effect_run heffect
    · simp [hexpected, hkept, hempty, hhalted]
    · simp [hexpected, hkept, hempty, hrunKept, hrun]

end Sys2Proof.Machine

/-! PROOFS. The frames of the instructions (41_halt_load_print, 42_stack, 43_control, 44_alu; 60_exceptions R145): the
frame of the effect, or of a fault taken. -/

namespace Sys2Proof.Machine

open Sys2Proof.Claims

section
variable {i : Instr} {s t : State} (h : Effect s t i)
include h

theorem Effect_fl_kept (hi : ∀ a b, i ≠ .cmp a b) : t.fl = s.fl := by
  obtain hkept | ⟨a, b, -, hcmp, -⟩ := Effect_fl h
  · exact hkept
  · exact absurd hcmp (hi a b)

theorem Effect_out_kept (hi : ∀ r, i ≠ .prn r) : t.out = s.out := by
  obtain hkept | ⟨r, -, hprn, -⟩ := Effect_out h
  · exact hkept
  · exact absurd hprn (hi r)

theorem Effect_sp_kept (hi : spMove i = 0) : t.sp = s.sp := by
  have hsp := Effect_sp h
  rw [hi] at hsp
  exact BitVec.eq_of_toNat_eq (by omega)

theorem Effect_mem_kept (hi : spMove i ≠ -1) : t.mem = s.mem := by
  obtain hkept | ⟨⟨r, rfl | rfl⟩, -⟩ := Effect_mem h
  · exact hkept
  · exact absurd rfl hi
  · exact absurd rfl hi

theorem Effect_run_kept (hi : i ≠ .hlt) : t.run = s.run := by
  obtain ⟨-, ⟨hhlt, -⟩ | ⟨-, hkept⟩⟩ := Effect_run h
  · exact absurd hhlt hi
  · exact hkept

end

/-- Settles O44: none of the three stores, moves `sp`, prints or writes a flag, and no check but the operands' can
fail. -/
theorem frameOfRegisterWriters : Obligations.FrameOfRegisterWriters := by
  intro i s t d v hi hexec
  obtain ⟨hwritten, hmove, hcmp, hprn, hhlt, hhandler⟩ : registersWritten i = [d] ∧ spMove i = 0 ∧
      (∀ a b, i ≠ .cmp a b) ∧ (∀ r, i ≠ .prn r) ∧ i ≠ .hlt ∧ handlerFault s i = none := by
    obtain rfl | rfl | rfl := hi <;> exact ⟨rfl, rfl, nofun, nofun, nofun, rfl⟩
  obtain ⟨hwf, heffect⟩ | ⟨hwf, f, rfl⟩ := exec_outcome_of_handlerFault_eq_none hhandler hexec
  · refine ⟨fun k hk => Effect_getX heffect k (by simpa [hwritten] using hk), Effect_fl_kept heffect hcmp,
      Effect_sp_kept heffect hmove, Effect_out_kept heffect hprn, fun a => ?_,
      .inl ⟨hwf, Effect_run_kept heffect hhlt, (Effect_run heffect).left⟩⟩
    rw [Effect_mem_kept heffect (by simp [hmove])]
  · exact ⟨fun _ _ => rfl, rfl, rfl, rfl, fun _ => rfl, .inr ⟨hwf, rfl, rfl, rfl⟩⟩

/-- Settles O45: none of the six writes a register, stores or moves `sp`, only CMP writes a flag and only PRN prints, and
no check but the operands' can fail. -/
theorem frameOfNonStoringInstructions : Obligations.FrameOfNonStoringInstructions := by
  intro i s t a b hi hexec
  obtain ⟨hwritten, hmove, hhandler⟩ : registersWritten i = [] ∧ spMove i = 0 ∧ handlerFault s i = none := by
    obtain rfl | rfl | rfl | rfl | rfl | rfl := hi <;> exact ⟨rfl, rfl, rfl⟩
  have hcmp : ∀ c d, i = .cmp c d → i = .cmp a b := by
    rintro c d rfl
    simpa using hi
  have hprn : ∀ r, i = .prn r → i = .prn a := by
    rintro r rfl
    simpa using hi
  obtain ⟨hwf, heffect⟩ | ⟨hwf, f, rfl⟩ := exec_outcome_of_handlerFault_eq_none hhandler hexec
  · refine ⟨Effect_x heffect hwritten, Effect_sp_kept heffect hmove, fun c => ?_,
      fun hne => Effect_fl_kept heffect fun c d h => hne (hcmp c d h), fun k hk => Effect_fl_high heffect hk,
      fun hne => Effect_out_kept heffect fun r h => hne (hprn r h),
      .inl ⟨hwf, fun hne => Effect_run_kept heffect hne, (Effect_run heffect).left⟩⟩
    rw [Effect_mem_kept heffect (by simp [hmove])]
  · exact ⟨rfl, rfl, fun _ => rfl, fun _ => rfl, fun _ _ => rfl, fun _ => rfl, .inr ⟨hwf, rfl, rfl, rfl, rfl⟩⟩

/-- Settles O46: neither stores, prints or writes a flag, and only POP writes a register. -/
theorem frameOfPopAndRet : Obligations.FrameOfPopAndRet := by
  intro i s t r hi hexec
  obtain ⟨hmove, hcmp, hprn, hhlt⟩ : spMove i = 1 ∧ (∀ a b, i ≠ .cmp a b) ∧ (∀ r, i ≠ .prn r) ∧ i ≠ .hlt := by
    obtain rfl | rfl := hi <;> exact ⟨rfl, nofun, nofun, nofun⟩
  have hwritten (k : Fin 8) (hk : i = .pop r → k.val ≠ r.toNat) : k.val ∉ (registersWritten i).map BitVec.toNat := by
    obtain rfl | rfl := hi
    · simpa [registersWritten] using hk rfl
    · simp [registersWritten]
  obtain heffect | ⟨f, rfl⟩ := exec_cases hexec
  · refine ⟨fun k hk => Effect_getX heffect k (hwritten k hk), Effect_fl_kept heffect hcmp,
      Effect_out_kept heffect hprn, fun a => ?_,
      .inl ⟨Effect_run_kept heffect hhlt, (Effect_run heffect).left⟩⟩
    rw [Effect_mem_kept heffect (by simp [hmove])]
  · exact ⟨fun _ _ => rfl, rfl, rfl, fun _ => rfl, .inr ⟨rfl, rfl, rfl, rfl⟩⟩

/-- PUSH's and CALL's effects leave `sp` at the push's slot. -/
theorem Effect_pushSlot {i : Instr} {r : Byte} {s t : State} (hi : i = .push r ∨ i = .call r) (h : Effect s t i) :
    pushSlot s.sp = .ok t.sp := by
  obtain rfl | rfl := hi
  · obtain ⟨k, slot, -, hslot, rfl⟩ := h; exact hslot
  · obtain ⟨k, slot, ret, -, hslot, -, rfl⟩ := h; exact hslot

/-- Settles O47: the one store is at the slot, which becomes `sp`; neither writes a register or a flag or prints. -/
theorem frameOfPushAndCall : Obligations.FrameOfPushAndCall := by
  rintro i s t r ⟨hm, -⟩ hi hexec
  obtain ⟨hwritten, hcmp, hprn, hhlt⟩ :
      registersWritten i = [] ∧ (∀ a b, i ≠ .cmp a b) ∧ (∀ r, i ≠ .prn r) ∧ i ≠ .hlt := by
    obtain rfl | rfl := hi <;> exact ⟨rfl, nofun, nofun, nofun⟩
  obtain heffect | ⟨f, rfl⟩ := exec_cases hexec
  · have hslot := Effect_pushSlot hi heffect
    refine ⟨Effect_x heffect hwritten, Effect_fl_kept heffect hcmp, Effect_out_kept heffect hprn,
      fun slot hslot' a ha => ?_, .inl ⟨t.sp, hslot, rfl, Effect_run_kept heffect hhlt, (Effect_run heffect).left⟩⟩
    cases hslot.symm.trans hslot'
    by_contra hne
    obtain ⟨-, -, hat⟩ := Effect_read hm heffect hne
    exact ha hat
  · exact ⟨rfl, rfl, rfl, fun _ _ _ _ => rfl, .inr ⟨rfl, rfl, rfl, fun _ => rfl⟩⟩

end Sys2Proof.Machine

/-! PROOFS. Which registers an instruction's effect depends on (10_state R11): two runs whose register files agree on
the registers read. -/

namespace Sys2Proof.Machine

open Sys2Proof.Claims

/-- The state with another register file. -/
def State.withX (s : State) (y : Vector Byte 8) : State := { s with x := y }

/-- The two files agree on the registers the instruction reads from `s`. -/
def ReadsAgree (s : State) (i : Instr) (y : Vector Byte 8) : Prop :=
  ∀ k : Fin 8, k.val ∈ (registersRead s i).map BitVec.toNat → y.get k = s.x.get k

/-- Two results differ in nothing but registers, and not in those the instruction writes. -/
def SameButUnwritten (i : Instr) (t t' : State) : Prop :=
  (∀ k : Fin 8, k.val ∈ (registersWritten i).map BitVec.toNat → t'.x.get k = t.x.get k) ∧ t' = t.withX t'.x

theorem getX_withX_of_read {s : State} {i : Instr} {y : Vector Byte 8} (hy : ReadsAgree s i y) {r : Byte} {k : Fin 8}
    (hk : regIndex r = .ok k) (hr : r ∈ registersRead s i) : (s.withX y).getX k = s.getX k :=
  hy k (val_of_regIndex hk ▸ List.mem_map_of_mem hr)

/-- Results that differ only in the register files they keep, where nothing is written. -/
theorem sameButUnwritten_of_noWrite {i : Instr} (hi : registersWritten i = []) (t : State) (y : Vector Byte 8) :
    SameButUnwritten i t (t.withX y) :=
  ⟨fun k hk => by simp [hi] at hk, rfl⟩

/-- Results that differ only in the register files they keep but for one value written to both. -/
theorem sameButUnwritten_of_setX {i : Instr} {r : Byte} {k : Fin 8} (hi : registersWritten i = [r])
    (hk : regIndex r = .ok k) (t : State) (y : Vector Byte 8) (v : Byte) :
    SameButUnwritten i (t.setX k v) ((t.withX y).setX k v) := by
  refine ⟨fun j hj => ?_, rfl⟩
  have hjk : j = k := Fin.ext (by simpa [hi, val_of_regIndex hk] using hj)
  rw [hjk]
  exact (State.getX_setX_same (t.withX y) k v).trans (State.getX_setX_same t k v).symm

/-- A branch reads its register only when taken. -/
theorem branchIf_withX {taken : Bool} {k : Fin 8} {s : State} {y : Vector Byte 8}
    (hget : taken = true → (s.withX y).getX k = s.getX k) :
    branchIf taken k (s.withX y) = (branchIf taken k s).withX y := by
  cases taken with
  | false => rfl
  | true =>
    show (s.withX y).jump ((s.withX y).getX k) = (s.jump (s.getX k)).withX y
    rw [hget rfl]
    rfl

/-- From files that agree on the registers read, the effects differ in nothing but registers not written. -/
theorem Effect_withX {i : Instr} {s t t' : State} {y : Vector Byte 8} (hy : ReadsAgree s i y) (h : Effect s t i)
    (h' : Effect (s.withX y) t' i) : SameButUnwritten i t t' := by
  have hget {r : Byte} {k : Fin 8} (hk : regIndex r = .ok k) (hr : r ∈ registersRead s i) :
      (s.withX y).getX k = s.getX k := getX_withX_of_read hy hk hr
  cases i with
  | hlt => cases h; cases h'; exact sameButUnwritten_of_noWrite rfl _ y
  | prn r | jmp r =>
    obtain ⟨k, hk, rfl⟩ := h
    obtain ⟨k', hk', rfl⟩ := h'
    cases hk.symm.trans hk'
    rw [hget hk List.mem_cons_self]
    exact sameButUnwritten_of_noWrite rfl _ y
  | push r =>
    obtain ⟨k, slot, hk, hslot, rfl⟩ := h
    obtain ⟨k', slot', hk', hslot', rfl⟩ := h'
    cases hk.symm.trans hk'
    cases hslot.symm.trans hslot'
    rw [hget hk List.mem_cons_self]
    exact sameButUnwritten_of_noWrite rfl _ y
  | call r =>
    obtain ⟨k, slot, ret, hk, hslot, hret, rfl⟩ := h
    obtain ⟨k', slot', ret', hk', hslot', hret', rfl⟩ := h'
    cases hk.symm.trans hk'
    cases hslot.symm.trans hslot'
    cases hret.symm.trans hret'
    rw [hget hk List.mem_cons_self]
    exact sameButUnwritten_of_noWrite rfl _ y
  | ret =>
    obtain ⟨slot, hslot, rfl⟩ := h
    obtain ⟨slot', hslot', rfl⟩ := h'
    cases hslot.symm.trans hslot'
    exact sameButUnwritten_of_noWrite rfl _ y
  | jeq r =>
    obtain ⟨k, hk, rfl⟩ := h
    obtain ⟨k', hk', rfl⟩ := h'
    cases hk.symm.trans hk'
    have hread (htaken : flagE s.fl = true) : r ∈ registersRead s (.jeq r) := by
      simpa [registersRead, flagE] using htaken
    exact branchIf_withX (fun htaken => hget hk (hread htaken)) ▸ sameButUnwritten_of_noWrite rfl _ y
  | jne r =>
    obtain ⟨k, hk, rfl⟩ := h
    obtain ⟨k', hk', rfl⟩ := h'
    cases hk.symm.trans hk'
    have hread (htaken : (!flagE s.fl) = true) : r ∈ registersRead s (.jne r) := by
      simpa [registersRead, flagE] using htaken
    exact branchIf_withX (fun htaken => hget hk (hread htaken)) ▸ sameButUnwritten_of_noWrite rfl _ y
  | cmp a b =>
    obtain ⟨k, l, hk, hl, rfl⟩ := h
    obtain ⟨k', l', hk', hl', rfl⟩ := h'
    cases hk.symm.trans hk'
    cases hl.symm.trans hl'
    rw [hget hk List.mem_cons_self, hget hl (List.mem_cons_of_mem a List.mem_cons_self)]
    exact sameButUnwritten_of_noWrite rfl _ y
  | ldi r v =>
    obtain ⟨k, hk, rfl⟩ := h
    obtain ⟨k', hk', rfl⟩ := h'
    cases hk.symm.trans hk'
    exact sameButUnwritten_of_setX (i := .ldi r v) rfl hk (s.advance 2) y v
  | pop r =>
    obtain ⟨k, slot, hk, hslot, rfl⟩ := h
    obtain ⟨k', slot', hk', hslot', rfl⟩ := h'
    cases hk.symm.trans hk'
    cases hslot.symm.trans hslot'
    exact sameButUnwritten_of_setX (i := .pop r) rfl hk ({ s with sp := slot }.advance 1) y _
  | add a b | mul a b =>
    obtain ⟨k, l, hk, hl, rfl⟩ := h
    obtain ⟨k', l', hk', hl', rfl⟩ := h'
    cases hk.symm.trans hk'
    cases hl.symm.trans hl'
    rw [hget hk List.mem_cons_self, hget hl (List.mem_cons_of_mem a List.mem_cons_self)]
    exact sameButUnwritten_of_setX rfl hk (s.advance 2) y _

/-- Settles O29: the checks read no register, so both runs take the same fault or both have their effects, which
`Effect_withX` compares and `Effect_getX` frames. -/
theorem registersReadAndWritten : Obligations.RegistersReadAndWritten := by
  intro i s t t' y _ hy hexec hexec'
  have hfault : execFault i (s.withX y) = execFault i s := rfl
  obtain ⟨f, hf, rfl⟩ | ⟨hf, h⟩ := exec_outcome hexec <;>
    obtain ⟨f', hf', rfl⟩ | ⟨hf', h'⟩ := exec_outcome hexec'
  · cases hf.symm.trans hf'
    exact ⟨fun _ _ => ⟨rfl, rfl⟩, fun hcompletes => absurd rfl hcompletes, rfl⟩
  · cases hf.symm.trans (hfault.symm.trans hf')
  · cases hf.symm.trans (hfault.symm.trans hf')
  · obtain ⟨hwritten, hsame⟩ := Effect_withX hy h h'
    exact ⟨fun k hk => ⟨Effect_getX h k hk, Effect_getX h' k hk⟩, fun _ => hwritten, hsame⟩

end Sys2Proof.Machine

/-! PROOFS. Memory as data and the load (20_memory, 70_reset): canonical memories are equal when they read alike, the
primitives out of range, and the state a load gives. -/

namespace Sys2Proof.Machine

/-- Settles O25: an address below 0 or above 255 is no cell, so both primitives raise what the address check raises. -/
theorem primitivesFaultOutOfRange : Obligations.PrimitivesFaultOutOfRange := by
  intro m a v hout
  obtain ⟨c, rfl, hc, -⟩ | ⟨-, hcell⟩ := cellOf_cases a
  · have hc' : c < 256 := hc
    omega
  · simp only [memRead, memWrite, hcell, and_self]

/-- The first listed address reads as its value, which is not what an unlisted address reads as. -/
theorem Memory.read_head_ne {lo b : Nat} {w : Byte} {m : Memory} (h : Memory.wfFrom lo ((b, w) :: m) = true) :
    Memory.read ((b, w) :: m) b ≠ Memory.unlisted := by
  obtain ⟨-, -, hw, -⟩ := Memory.wfFrom_cons.mp h
  rwa [Memory.read_cons_entry, if_pos rfl]

/-- The first listed address of a canonical memory is no later than that of one that reads alike: an address below the
first listed one reads as unlisted. -/
theorem Memory.head_le_of_read_eq {lo lo' b b' : Nat} {w w' : Byte} {m m' : Memory}
    (h : Memory.wfFrom lo ((b, w) :: m) = true) (h' : Memory.wfFrom lo' ((b', w') :: m') = true)
    (hread : ∀ a, a < 256 → Memory.read ((b, w) :: m) a = Memory.read ((b', w') :: m') a) : b ≤ b' := by
  obtain ⟨-, hcells⟩ := Memory.wfFrom_cons.mp h
  obtain ⟨-, hb', -, -⟩ := Memory.wfFrom_cons.mp h'
  by_contra hlt
  refine Memory.read_head_ne h' ?_
  rw [← hread b' hb']
  exact Memory.read_below (lo := b) (Memory.wfFrom_cons.mpr ⟨le_rfl, hcells⟩) (Nat.not_le.mp hlt)

/-- Memories in canonical form are determined by what their addresses read as. -/
theorem Memory.eq_of_read_eq {lo lo' : Nat} {m m' : Memory} (h : Memory.wfFrom lo m = true)
    (h' : Memory.wfFrom lo' m' = true) (hread : ∀ a, a < 256 → Memory.read m a = Memory.read m' a) : m = m' := by
  induction m generalizing lo lo' m' with
  | nil =>
    cases m' with
    | nil => rfl
    | cons e' m' =>
      obtain ⟨-, hb', -, -⟩ := Memory.wfFrom_cons.mp h'
      exact absurd (hread _ hb').symm (Memory.read_head_ne h')
  | cons e m ih =>
    obtain ⟨b, w⟩ := e
    obtain ⟨-, hb, -, htail⟩ := Memory.wfFrom_cons.mp h
    cases m' with
    | nil => exact absurd (hread b hb) (Memory.read_head_ne h)
    | cons e' m' =>
      obtain ⟨b', w'⟩ := e'
      obtain ⟨-, -, -, htail'⟩ := Memory.wfFrom_cons.mp h'
      obtain rfl : b = b' :=
        le_antisymm (Memory.head_le_of_read_eq h h' hread)
          (Memory.head_le_of_read_eq h' h fun a ha => (hread a ha).symm)
      have hw : w = w' := by simpa [Memory.read_cons_entry] using hread b hb
      have hreadTail (a : Nat) (ha : a < 256) : Memory.read m a = Memory.read m' a := by
        rcases Nat.lt_or_ge b a with hba | hab
        · simpa [Memory.read_cons_entry, hba.ne'] using hread a ha
        · rw [Memory.read_below htail (Nat.lt_succ_of_le hab), Memory.read_below htail' (Nat.lt_succ_of_le hab)]
      rw [hw, ih htail htail' hreadTail]

/-- Settles O26: `Memory.eq_of_read_eq`. -/
theorem equalMemoriesAreEqualData : Obligations.EqualMemoriesAreEqualData :=
  fun _ _ => Memory.eq_of_read_eq

/-- Settles O12: a load that fits answers the reset state with the program stored, read back by `read_loaded`. -/
theorem resetAndLoadGiveTheStartState : Obligations.ResetAndLoadGiveTheStartState := by
  intro program
  refine ⟨fun hfits => ?_, fun hlong => if_neg hlong.not_ge⟩
  have hregisters : ∀ r : Fin 8, State.reset.x.get r = if r.val = 7 then 0xF4#8 else 0#8 := by decide
  refine ⟨_, State.load_next.mpr ⟨hfits, rfl⟩, hregisters, rfl, rfl, rfl, rfl, rfl, rfl, fun a _ => ?_⟩
  rw [read_loaded hfits, List.getD_eq_getElem?_getD]

end Sys2Proof.Machine

/-! PROOFS. Runs (40_cycle R78, R79) and what the next step sees (20_memory R42): an ended run stays, a self-jump never
ends, and a pushed byte is fetched. -/

namespace Sys2Proof.Machine

open Sys2Proof.Claims

/-- An ended run stays in its state under any fuel. -/
theorem runFor_of_ended {s : State} (h : s.run ≠ .running) (fuel : Nat) : runFor fuel s = .next s := by
  cases fuel with
  | zero => rfl
  | succ fuel =>
    cases hrun : s.run with
    | running => exact absurd hrun h
    | halted | faulted => simp only [runFor, hrun]

/-- One unit of fuel is one step. -/
theorem runFor_succ_of_step {s t : State} (h : step s = .next t) (fuel : Nat) :
    runFor (fuel + 1) s = runFor fuel t := by
  obtain ⟨hrun, -⟩ := step_next.mp h
  simp only [runFor, hrun, h]

/-- Under any fuel the run loop answers a state, from which more fuel goes on. -/
theorem runFor_answers (fuel : Nat) (s : State) :
    ∃ t, runFor fuel s = .next t ∧ ∀ more, runFor (fuel + more) s = runFor more t := by
  induction fuel generalizing s with
  | zero => exact ⟨s, rfl, fun more => by rw [Nat.zero_add]⟩
  | succ fuel ih =>
    by_cases hrun : s.run = .running
    · obtain ⟨u, hstep⟩ := step_answers hrun
      obtain ⟨t, hfuel, hmore⟩ := ih u
      refine ⟨t, (runFor_succ_of_step hstep fuel).trans hfuel, fun more => ?_⟩
      rw [Nat.succ_add, runFor_succ_of_step hstep, hmore]
    · exact ⟨s, runFor_of_ended hrun _, fun more => by rw [runFor_of_ended hrun, runFor_of_ended hrun]⟩

/-- Settles O16: further fuel goes on from the state answered, which stays once the run has ended. -/
theorem runEndsOnceAndStays : Obligations.RunEndsOnceAndStays := by
  intro fuel s
  obtain ⟨t, hfuel, hmore⟩ := runFor_answers fuel s
  refine ⟨t, hfuel, fun hended more => (hmore more).trans (runFor_of_ended hended more), ?_, ?_⟩
  · intro hhalted
    rw [step, hhalted]
  · intro hfaulted
    rw [step, hfaulted]

/-- A one-operand instruction whose two bytes lie at `pc` is what the fetch answers. -/
theorem fetch_oneOperand {s : State} {i : Instr} {r : Byte} (hi : operandBytes i = [r]) (hpc : s.pc.toNat ≤ 254)
    (hopcode : opcodeAt s = opcodeByte i) (hop1 : op1At s = r) : fetch s = .ok i := by
  refine fetch_at ?_ hopcode fun k hk => ?_
  · rw [hi]
    exact Nat.lt_succ_of_le (Nat.succ_le_succ hpc)
  · have hk0 : k = 0 := by simpa [hi] using hk
    subst hk0
    simpa [op1At, hi] using hop1

theorem regIndex_ofNat (r : Fin 8) : regIndex (BitVec.ofNat 8 r.val) = .ok r := by
  have hval : (BitVec.ofNat 8 r.val).toNat = r.val := Nat.mod_eq_of_lt (r.isLt.trans (by decide))
  rw [regIndex_ok (hval.trans_lt r.isLt)]
  exact congrArg _ (Fin.ext hval)

/-- A jump to `pc` itself changes nothing. -/
theorem State.jump_self {s : State} {target : Byte} (h : target.toNat = s.pc.toNat) : s.jump target = s := by
  have hpc : target.setWidth 9 = s.pc :=
    BitVec.eq_of_toNat_eq ((State.jump_pc_toNat s target).trans h)
  rw [State.jump, hpc]

/-- A step that changes nothing is taken again under any fuel. -/
theorem runFor_of_step_self {s : State} (h : step s = .next s) (fuel : Nat) : runFor fuel s = .next s := by
  induction fuel with
  | zero => rfl
  | succ fuel ih => rw [runFor_succ_of_step h, ih]

/-- Settles O17: the JMP fetched goes to `pc` itself, so its step answers the same state, again and again. -/
theorem selfJumpRunsForEver : Obligations.SelfJumpRunsForEver := by
  intro s r hrun hpc hopcode hop1 hself
  have hfetch : fetch s = .ok (.jmp (BitVec.ofNat 8 r.val)) := fetch_oneOperand rfl hpc hopcode hop1
  have hstep : step s = .next s := by
    rw [step_of_fetch hrun hfetch, exec, execJmp, regIndex_ofNat, orFault_ok, State.getX, State.jump_self hself]
  exact ⟨hstep, runFor_of_step_self hstep⟩

/-- A PUSH of a register at `pc` steps to the state with its value stored below `sp`. -/
theorem step_push {s : State} {r : Fin 8} (hrun : s.run = .running) (hpc : s.pc.toNat ≤ 254)
    (hopcode : opcodeAt s = 0x45#8) (hop1 : op1At s = BitVec.ofNat 8 r.val) (hsp : s.sp ≠ 0#8) :
    step s =
      .next ({ s with mem := Memory.write s.mem (s.sp - 1#8).toNat (s.getX r), sp := s.sp - 1#8 }.advance 1) := by
  have hfetch : fetch s = .ok (.push (BitVec.ofNat 8 r.val)) := fetch_oneOperand rfl hpc hopcode hop1
  simp only [step_of_fetch hrun hfetch, exec, execPush, regIndex_ofNat, pushSlot_of_ne hsp, orFault_ok, memWrite_byte]

/-- A step that finds an illegal byte at `pc` takes UnsupportedOpcode with that byte. -/
theorem step_of_illegal_byte {s : State} {b : Byte} (hrun : s.run = .running) (hpc : s.pc.toNat < 256)
    (hopcode : opcodeAt s = b) (h : illegalOpcode b = true) :
    step s = .next (faulted (.unsupportedOpcode b) s) := by
  subst hopcode
  exact step_of_illegalOpcode hrun hpc h

/-- Settles O28: PUSH runs as it was fetched; when its slot is the next instruction's address, the byte stored is the
next opcode, and an illegal one stops the core there. -/
theorem nextFetchSeesTheStore : Obligations.NextFetchSeesTheStore := by
  rintro s r ⟨hm, -⟩ hrun hpc hopcode hop1 hsp
  have hnextPc : (s.advance 1).pc.toNat = s.pc.toNat + 2 :=
    State.advance_pc_toNat (Nat.lt_succ_of_le (Nat.succ_le_succ hpc))
  have hstored (a : Nat) (ha : a = s.sp.toNat - 1) :
      Memory.read (Memory.write s.mem (s.sp - 1#8).toNat (s.getX r)) a = s.getX r := by
    rw [read_write_pushSlot hm hsp, if_pos ha]
  refine ⟨_, step_push hrun hpc hopcode hop1 hsp, hrun, hnextPc, hstored _ rfl, fun hslot hillegal => ?_⟩
  have hlt : s.sp.toNat < 256 := s.sp.isLt
  exact step_of_illegal_byte hrun (hnextPc.trans_lt (by omega)) (hstored _ (hnextPc.trans (by omega))) hillegal

end Sys2Proof.Machine

/-! PROOFS. The output's text (41_halt_load_print R95): numerals are made of digits and read back, so the line feeds tell
the values apart. -/

namespace Sys2Proof.Machine

theorem decimalDigit_toNat : ∀ d : Nat, d < 10 → (decimalDigit d).toNat = 48 + d := by decide

/-- The number a list of digits reads as. -/
def numeralValue (cs : List Char) : Nat := cs.foldl (fun n c => 10 * n + (c.toNat - 48)) 0

/-- A numeral has one, two or three digits, by the size of its value. -/
theorem numeral_cases (v : Byte) :
    (v.toNat < 10 ∧ numeral v = [decimalDigit v.toNat]) ∨
      (10 ≤ v.toNat ∧ v.toNat < 100 ∧ numeral v = [decimalDigit (v.toNat / 10), decimalDigit (v.toNat % 10)]) ∨
      (100 ≤ v.toNat ∧ numeral v =
        [decimalDigit (v.toNat / 100), decimalDigit (v.toNat / 10 % 10), decimalDigit (v.toNat % 10)]) := by
  unfold numeral
  dsimp only
  split
  · exact .inl ⟨‹_›, rfl⟩
  · split
    · exact .inr (.inl ⟨by omega, ‹_›, rfl⟩)
    · exact .inr (.inr ⟨by omega, rfl⟩)

/-- A numeral reads back as its value. -/
theorem numeralValue_numeral (v : Byte) : numeralValue (numeral v) = v.toNat := by
  have hv := v.isLt
  obtain ⟨h, hn⟩ | ⟨-, h, hn⟩ | ⟨h, hn⟩ := numeral_cases v <;> rw [hn, numeralValue] <;>
    simp only [List.foldl_cons, List.foldl_nil]
  · rw [decimalDigit_toNat _ h]
    omega
  · rw [decimalDigit_toNat _ (by omega), decimalDigit_toNat _ (by omega)]
    omega
  · rw [decimalDigit_toNat _ (by omega), decimalDigit_toNat _ (by omega), decimalDigit_toNat _ (by omega)]
    omega

/-- Every character of a numeral is a digit. -/
theorem digit_of_mem_numeral {v : Byte} {c : Char} (h : c ∈ numeral v) : ∃ d < 10, c = decimalDigit d := by
  have hv := v.isLt
  obtain ⟨hlt, hn⟩ | ⟨-, hlt, hn⟩ | ⟨-, hn⟩ := numeral_cases v <;>
    simp only [hn, List.mem_cons, List.not_mem_nil, or_false] at h
  · exact ⟨_, hlt, h⟩
  · obtain rfl | rfl := h <;> exact ⟨_, by omega, rfl⟩
  · obtain rfl | rfl | rfl := h <;> exact ⟨_, by omega, rfl⟩

theorem toNat_of_mem_numeral {v : Byte} {c : Char} (h : c ∈ numeral v) : 48 ≤ c.toNat ∧ c.toNat ≤ 57 := by
  obtain ⟨d, hd, rfl⟩ := digit_of_mem_numeral h
  rw [decimalDigit_toNat d hd]
  omega

/-- A digit that is not 0 is not the character of 0. -/
theorem decimalDigit_ne_zero {d : Nat} (hd : d < 10) (h : d ≠ 0) : decimalDigit d ≠ '0' := by
  intro he
  have hval : (decimalDigit d).toNat = 48 := congrArg Char.toNat he
  rw [decimalDigit_toNat d hd] at hval
  omega

/-- A numeral of more than one digit has no leading zero. -/
theorem numeral_no_leading_zero (v : Byte) :
    (numeral v).length = 1 ∨ ∃ c cs, numeral v = c :: cs ∧ c ≠ '0' := by
  have hv := v.isLt
  obtain ⟨-, hn⟩ | ⟨hge, hlt, hn⟩ | ⟨hge, hn⟩ := numeral_cases v
  · exact .inl (by rw [hn]; rfl)
  · exact .inr ⟨_, _, hn, decimalDigit_ne_zero (by omega) (by omega)⟩
  · exact .inr ⟨_, _, hn, decimalDigit_ne_zero (by omega) (by omega)⟩

theorem newline_notMem_numeral (v : Byte) : '\n' ∉ numeral v := by
  intro h
  obtain ⟨hge, -⟩ := toNat_of_mem_numeral h
  exact absurd hge (by decide)

/-- Values with the same numeral are equal: it reads back. -/
theorem numeral_injective {v w : Byte} (h : numeral v = numeral w) : v = w := by
  apply BitVec.eq_of_toNat_eq
  rw [← numeralValue_numeral v, h, numeralValue_numeral w]

/-- The first line feed of a text ends its first numeral. -/
theorem takeWhile_renderOut_cons (v : Byte) (vs : List Byte) :
    (renderOut (v :: vs)).takeWhile (· != '\n') = numeral v := by
  have hdigits : ∀ c ∈ numeral v, (c != '\n') = true :=
    fun c hc => bne_iff_ne.mpr fun he => newline_notMem_numeral v (he ▸ hc)
  rw [renderOut, List.takeWhile_append_of_pos hdigits, List.takeWhile_cons_of_neg (by simp), List.append_nil]

theorem renderOut_append (vs ws : List Byte) : renderOut (vs ++ ws) = renderOut vs ++ renderOut ws := by
  induction vs with
  | nil => rfl
  | cons v vs ih => simp [renderOut, ih]

/-- Outputs with equal text are equal: each value's numeral ends at the first line feed. -/
theorem renderOut_injective {vs ws : List Byte} (h : renderOut vs = renderOut ws) : vs = ws := by
  induction vs generalizing ws with
  | nil =>
    cases ws with
    | nil => rfl
    | cons w ws => simp [renderOut] at h
  | cons v vs ih =>
    cases ws with
    | nil => simp [renderOut] at h
    | cons w ws =>
      have hnumeral : numeral v = numeral w := by
        rw [← takeWhile_renderOut_cons v vs, h, takeWhile_renderOut_cons]
      rw [renderOut, renderOut, hnumeral] at h
      obtain ⟨-, hrest⟩ := List.cons.inj (List.append_cancel_left h)
      rw [numeral_injective hnumeral, ih hrest]

/-- Settles O50: the numeral's clauses by its number of digits, and the text's by its recursion. -/
theorem renderedTextDeterminesTheValues : Obligations.RenderedTextDeterminesTheValues :=
  ⟨fun v => ⟨numeralValue_numeral v, fun _ => toNat_of_mem_numeral, numeral_no_leading_zero v⟩, rfl, fun _ => rfl,
    renderOut_append, fun _ _ => renderOut_injective⟩

end Sys2Proof.Machine
